-- ==== Sys2Proof/Word.lean ====
section
/-! DEFINITION. The words of the CORE: the bit-field types of the request and response records
(30_encoding.md R68, R69) and of the Text-table ROM (10_state.md R25). -/

namespace Sys2Proof

/-- One element of a byte buffer (20_memory.md R42). -/
abbrev Byte := BitVec 8

/-- A 4-bit field (00_scope.md R17). -/
abbrev Nibble := BitVec 4

/-- A 32-bit word: `CMD`, `ARG0`, `IDX`, `LEN`, `RES` (30_encoding.md R68, R69). -/
abbrev Word := BitVec 32

/-- One text element, a code point value of 21 bits (00_scope.md R12, 20_memory.md R43). -/
abbrev Scalar := BitVec 21

/-- The decimal coefficient port, `PD_COEFF_BITS` = 96 (00_scope.md R8). -/
abbrev Coeff := BitVec 96

end Sys2Proof
end

