-- ==== Sys2Proof/Config.lean ====
section
/-! DEFINITION. What a build of the CORE fixes: the parameters of 00_scope.md R8 and their
constraints (R9). Their default values stand in Machine/Defaults.lean. No value is left free: the
spec leaves no result undefined. -/

namespace Sys2Proof

/-- The two admissible values of `HFP_ROUND` (00_scope.md R8, R14): round half to even, and round
half up. -/
inductive Rounding where
  | rne
  | rhu
  deriving DecidableEq, Repr

/-- The build-time parameters of 00_scope.md R8, except `TEXT_ROM` (a field of `State`) and the
three widths below. A set of nibbles is an ascending list. DESIGN CHOICE, safe (log 18). -/
structure Params where
  /-- `HFP_ROUND`: rounding of the 24-bit mantissa in HFP_ENC. -/
  hfpRound    : Rounding
  /-- `PD_POS_SIGN`: sign nibble written for a non-negative packed value. -/
  pdPosSign   : Nibble
  /-- `PD_NEG_SIGN`: sign nibble written for a negative packed value. -/
  pdNegSign   : Nibble
  /-- `PD_POS_ACCEPT`: sign nibbles PD_DEC reads as positive. -/
  pdPosAccept : List Nibble
  /-- `PD_NEG_ACCEPT`: sign nibbles PD_DEC reads as negative. -/
  pdNegAccept : List Nibble
  /-- `ZD_POS_EXTRA`: further final-zone nibbles ZD_DEC reads as positive. -/
  zdPosExtra  : List Nibble
  deriving DecidableEq, Repr

/-- `PD_COEFF_BITS` (00_scope.md R8). -/
abbrev Config.pdCoeffBits : Nat := 96

/-- `SEQ_LEN_BITS` (00_scope.md R8). -/
abbrev Config.seqLenBits : Nat := 32

/-- `IDX_BITS` (00_scope.md R8). -/
abbrev Config.idxBits : Nat := 32

/-- A set of sign nibbles in the canonical form of the model: ascending, and inside `{0xA..0xF}`
(00_scope.md R9). -/
abbrev SignSet (l : List Nibble) : Prop :=
  l.Pairwise (fun a b => a.toNat < b.toNat) ∧ ∀ n ∈ l, 10 ≤ n.toNat

/-- The constraints on the parameters, 00_scope.md R9. -/
structure Params.Admissible (p : Params) : Prop where
  posAccept  : SignSet p.pdPosAccept
  negAccept  : SignSet p.pdNegAccept
  posExtra   : SignSet p.zdPosExtra
  disjoint   : ∀ n ∈ p.pdPosAccept, n ∉ p.pdNegAccept
  disjointZd : ∀ n ∈ p.zdPosExtra, n ∉ p.pdNegAccept
  posSign    : p.pdPosSign ∈ p.pdPosAccept
  negSign    : p.pdNegSign ∈ p.pdNegAccept

end Sys2Proof
end

