-- ==== Sys2Proof/Syntax.lean ====
section
/-! DEFINITION. The commands of the CORE (30_encoding.md R60, R62), one constructor for each row of
spec/opcode_table.json. The operands travel in the request record; what the command word itself
carries besides the operation is its presence bits (R61). -/

namespace Sys2Proof

/-- A command. `a1p` and `a2p` are the presence bits `A1P` and `A2P` of the command word, kept for
the commands that may set them (30_encoding.md R63). The source entry point of each command (R75)
stands beside it. -/
inductive Instr where
  /-- TXT_ENC, `encode_text`: startIndex present, length present (40_text_codec.md R101). -/
  | txtEnc (a1p a2p : Bool)
  /-- TXT_DEC, `decode_text`: startIndex present, length present (40_text_codec.md R110). -/
  | txtDec (a1p a2p : Bool)
  /-- HFP_ENC, `encode_float` (41_hexfloat_codec.md R125). -/
  | hfpEnc
  /-- HFP_DEC, `decode_float`: offset present (41_hexfloat_codec.md R127). -/
  | hfpDec (a1p : Bool)
  /-- PD_ENC, packed-decimal `encode` (42_packed_decimal_codec.md R154). -/
  | pdEnc
  /-- PD_DEC, packed-decimal `decode` (42_packed_decimal_codec.md R155). -/
  | pdDec
  /-- ZD_DEC, `decode_unpacked` (42_packed_decimal_codec.md R156). -/
  | zdDec
  /-- I16_ENC, `encode_int16` (43_integer_codec.md R181). -/
  | i16Enc
  /-- I32_ENC, `encode_int32` (43_integer_codec.md R182). -/
  | i32Enc
  /-- I16_DEC, `decode_int16`: offset present (43_integer_codec.md R183). -/
  | i16Dec (a1p : Bool)
  /-- I32_DEC, `decode_int32`: offset present (43_integer_codec.md R184). -/
  | i32Dec (a1p : Bool)
  deriving DecidableEq, Repr

end Sys2Proof
end

