-- ==== Sys2Proof/WellFormed.lean ====
section
/-! DEFINITION. Which commands have a command word: the legal presence bits of 30_encoding.md
R63. -/

namespace Sys2Proof

/-- The presence pairs of the text commands: (0,0), (1,0) or (1,1). A length without a start index
has no spelling (30_encoding.md R63). -/
def textPresence (a1p a2p : Bool) : Bool := a1p || !a2p

/-- A command that some legal command word stands for (30_encoding.md R63, R76). The other
commands cannot express an illegal presence bit, so nothing is left to check for them. -/
def Instr.wellFormed : Instr → Bool
  | .txtEnc a1p a2p => textPresence a1p a2p
  | .txtDec a1p a2p => textPresence a1p a2p
  | .hfpEnc => true
  | .hfpDec _ => true
  | .pdEnc => true
  | .pdDec => true
  | .zdDec => true
  | .i16Enc => true
  | .i32Enc => true
  | .i16Dec _ => true
  | .i32Dec _ => true

end Sys2Proof
end

