-- ==== Sys2Proof/Decode.lean ====
section
/-! DEFINITION. Decoding a command word to a command, and the encoder (30_encoding.md R61 to R67,
R76). Decoding is total on 32-bit words and rejects by name. -/

namespace Sys2Proof

/-- Why a command word is illegal (30_encoding.md R67). All three are the one error IllegalCommand
to the caller (60_exceptions.md R204). -/
inductive DecodeError where
  /-- `CMD[31:10] != 0` (R65). -/
  | reservedBits
  /-- `OP` is not one of the eleven values (R66). -/
  | unassignedOpcode
  /-- the presence bits are not legal for the operation (R63). -/
  | presenceBits
  deriving DecidableEq, Repr

/-- `OP`, bits 7:0 of the command word (30_encoding.md R61). -/
def cmdOp (w : Word) : Byte := w.extractLsb' 0 8

/-- `A1P`, bit 8 (30_encoding.md R61). -/
def cmdA1P (w : Word) : Bool := w.getLsbD 8

/-- `A2P`, bit 9 (30_encoding.md R61). -/
def cmdA2P (w : Word) : Bool := w.getLsbD 9

/-- `RSV`, bits 31:10 (30_encoding.md R61). -/
def cmdRsv (w : Word) : BitVec 22 := w.extractLsb' 10 22

/-- A command that takes both optional arguments (30_encoding.md R63). -/
def takesTextArgs (mk : Bool → Bool → Instr) (a1p a2p : Bool) : Except DecodeError Instr :=
  if textPresence a1p a2p then .ok (mk a1p a2p) else .error .presenceBits

/-- A command that takes an optional offset and requires `A2P = 0` (30_encoding.md R63). -/
def takesOffset (mk : Bool → Instr) (a1p a2p : Bool) : Except DecodeError Instr :=
  if a2p then .error .presenceBits else .ok (mk a1p)

/-- A command that requires `A1P = 0` and `A2P = 0` (30_encoding.md R63). -/
def takesNothing (i : Instr) (a1p a2p : Bool) : Except DecodeError Instr :=
  if a1p || a2p then .error .presenceBits else .ok i

/-- The command an operation selects, by the opcode map of 30_encoding.md R62. -/
def decodeOp (op : Byte) (a1p a2p : Bool) : Except DecodeError Instr :=
  match op.toNat with
  | 0x01 => takesTextArgs .txtEnc a1p a2p
  | 0x02 => takesTextArgs .txtDec a1p a2p
  | 0x10 => takesNothing .hfpEnc a1p a2p
  | 0x11 => takesOffset .hfpDec a1p a2p
  | 0x20 => takesNothing .pdEnc a1p a2p
  | 0x21 => takesNothing .pdDec a1p a2p
  | 0x22 => takesNothing .zdDec a1p a2p
  | 0x30 => takesNothing .i16Enc a1p a2p
  | 0x31 => takesNothing .i32Enc a1p a2p
  | 0x32 => takesOffset .i16Dec a1p a2p
  | 0x33 => takesOffset .i32Dec a1p a2p
  | _ => .error .unassignedOpcode

/-- `Decode(CMD)`, 30_encoding.md R67: reserved bits first, then the operation, then the presence
bits. -/
def decode (w : Word) : Except DecodeError Instr :=
  if cmdRsv w ≠ 0 then .error .reservedBits else decodeOp (cmdOp w) (cmdA1P w) (cmdA2P w)

/-- The value of `OP` for a command (30_encoding.md R62). -/
def Instr.opcode : Instr → Byte
  | .txtEnc _ _ => 0x01
  | .txtDec _ _ => 0x02
  | .hfpEnc => 0x10
  | .hfpDec _ => 0x11
  | .pdEnc => 0x20
  | .pdDec => 0x21
  | .zdDec => 0x22
  | .i16Enc => 0x30
  | .i32Enc => 0x31
  | .i16Dec _ => 0x32
  | .i32Dec _ => 0x33

/-- The bit `A1P` of a command's word (30_encoding.md R61, R63). -/
def Instr.a1p : Instr → Bool
  | .txtEnc a1p _ => a1p
  | .txtDec a1p _ => a1p
  | .hfpDec a1p => a1p
  | .i16Dec a1p => a1p
  | .i32Dec a1p => a1p
  | .hfpEnc => false
  | .pdEnc => false
  | .pdDec => false
  | .zdDec => false
  | .i16Enc => false
  | .i32Enc => false

/-- The bit `A2P` of a command's word (30_encoding.md R61, R63). -/
def Instr.a2p : Instr → Bool
  | .txtEnc _ a2p => a2p
  | .txtDec _ a2p => a2p
  | .hfpEnc => false
  | .hfpDec _ => false
  | .pdEnc => false
  | .pdDec => false
  | .zdDec => false
  | .i16Enc => false
  | .i32Enc => false
  | .i16Dec _ => false
  | .i32Dec _ => false

/-- The command word of a command, `{RSV, A2P, A1P, OP}` (30_encoding.md R61). -/
def encode (i : Instr) : Word :=
  (0 : BitVec 22) ++ BitVec.ofBool i.a2p ++ BitVec.ofBool i.a1p ++ i.opcode

/-- The command words of 30_encoding.md R76, each beside the command it stands for. -/
def legalTable : List (Word × Instr) :=
  [(0x00000001, .txtEnc false false), (0x00000101, .txtEnc true false),
   (0x00000301, .txtEnc true true), (0x00000002, .txtDec false false),
   (0x00000102, .txtDec true false), (0x00000302, .txtDec true true),
   (0x00000010, .hfpEnc), (0x00000011, .hfpDec false), (0x00000111, .hfpDec true),
   (0x00000020, .pdEnc), (0x00000021, .pdDec), (0x00000022, .zdDec), (0x00000030, .i16Enc),
   (0x00000031, .i32Enc), (0x00000032, .i16Dec false), (0x00000132, .i16Dec true),
   (0x00000033, .i32Dec false), (0x00000133, .i32Dec true)]

/-- The 18 legal command words, 30_encoding.md R76. -/
def legalWords : List Word := legalTable.map Prod.fst

/-- The command word that a row of spec/opcode_table.json numbers `w` in its `nbits` low bits. -/
def tableWord (nbits w : Nat) : Word := BitVec.ofNat 32 (w % 2 ^ nbits)

/-- What the decoder reads from a word numbered as spec/opcode_table.json numbers it. -/
def decodeTableWord (nbits w : Nat) : Option Instr := (decode (tableWord nbits w)).toOption

end Sys2Proof
end

