-- ==== Sys2Proof/Machine/TextRom.lean ====
section
/-! DEFINITION. The Text-table ROM: its type, the two lookups, and which tables are admissible
(10_state.md R25 to R27, R29). -/

namespace Sys2Proof.Machine

/-- `TEXT_ROM`: 256 entries of 21 bits, indexed by an 8-bit code (10_state.md R25). -/
abbrev TextRom := Vector Scalar 256

/-- `ROM(i)`, 10_state.md R25: total on 8-bit codes. -/
def romRead (rom : TextRom) (i : Byte) : Scalar := rom[i.toNat]'i.isLt

/-- `ROM_INV(c)`, 10_state.md R29, as the search over the 256 entries: the index of the entry that
holds `c`, or none. -/
def romInv (rom : TextRom) (c : Scalar) : Option Byte :=
  (rom.toList.findIdx? (fun x => x = c)).map (BitVec.ofNat 8)

/-- The seven entries fixed by the source's literal vectors (10_state.md R27). -/
def fixedEntries : List (Byte × Scalar) :=
  [(0xD5, 0x4E), (0x96, 0x6F), (0x97, 0x70), (0x85, 0x65), (0xC8, 0x48), (0x93, 0x6C),
   (0x6B, 0x2C)]

/-- A Unicode scalar value: at most `0x10FFFF` and no surrogate (10_state.md R26). -/
def IsUnicodeScalar (c : Scalar) : Prop :=
  c.toNat ≤ 0x10FFFF ∧ ¬ (0xD800 ≤ c.toNat ∧ c.toNat ≤ 0xDFFF)

/-- An admissible table: bijective onto its image, made of Unicode scalar values (10_state.md R26),
with the seven fixed entries (R27). -/
structure RomAdmissible (rom : TextRom) : Prop where
  injective : ∀ i j : Byte, romRead rom i = romRead rom j → i = j
  scalars   : ∀ i : Byte, IsUnicodeScalar (romRead rom i)
  fixed     : ∀ e ∈ fixedEntries, romRead rom e.1 = e.2

end Sys2Proof.Machine
end

