-- ==== Sys2Proof/Machine/State.lean ====
section
/-! DEFINITION. The state: `TEXT_ROM`, the only storage of the CORE (10_state.md R25), the
build-time parameters, and the interface records through which a step reads a request and leaves a
response (30_encoding.md R60, R68, R69). All of it is plain data. -/

namespace Sys2Proof.Machine

/-- A request record, 30_encoding.md R68. `BUF_LEN` and `TXT_LEN` are the lengths of `buf` and `txt`
(log 6). `bufP = false` is the absent byte operand (00_scope.md R12), whatever `buf` holds. -/
structure Request where
  cmd   : Word
  bufP  : Bool := false
  buf   : List Byte := []
  txtP  : Bool := false
  txt   : List Scalar := []
  arg0  : Word := 0
  idx   : Word := 0
  len   : Word := 0
  blen  : Byte := 0
  scale : Byte := 0
  dneg  : Bool := false
  dmag  : Coeff := 0
  deriving DecidableEq, Repr

/-- A response record, 30_encoding.md R69, every field zero or empty unless it is set (R71).
`OBUF_LEN` and `OTXT_LEN` are the lengths of `obuf` and `otxt` (log 6). -/
structure Response where
  status : BitVec 3 := 0
  obuf   : List Byte := []
  otxt   : List Scalar := []
  res    : Word := 0
  rneg   : Bool := false
  rmag   : Coeff := 0
  rscale : Byte := 0
  deriving DecidableEq, Repr

/-- What the pseudocode's `raise` may name (00_scope.md R18, 60_exceptions.md R201). These errors
are returned in the response and never stop the machine (R200). -/
inductive Error where
  | invalidArgument
  | overflow
  | unmappableCharacter
  | underflow
  | illegalCommand
  deriving DecidableEq, Repr

/-- The whole state. Only `textRom` is the block's own storage. `params` holds the build-time
parameters (log 2), and `requests` and `responses` hold the interface: what the caller has issued
and not yet got answered, and what it has been answered, both oldest first (70_reset_and_hazards.md
R237). DESIGN CHOICE, safe (log 1). -/
structure State where
  textRom   : TextRom
  params    : Params
  requests  : List Request
  responses : List Response
  deriving DecidableEq, Repr

/-- Why the machine stops. The spec has no stop of its own (60_exceptions.md R200). -/
inductive Fault where
  /-- Raised by every meaning where no request is waiting, since there are no operands to read.
  `step` never reaches it. Safe. DESIGN CHOICE (log 5). -/
  | noRequest
  deriving DecidableEq, Repr

/-- Why an instruction has no meaning. -/
inductive Refusal where
  /-- Raised by an arm of `exec` whose instruction has no meaning yet; no arm does. Safe. -/
  | notModelled (mnemonic : String)
  deriving DecidableEq, Repr

/-- The state after reset, 10_state.md R32 and 70_reset_and_hazards.md R230: the ROM holds its
contents, nothing is pending and nothing has been answered. -/
def State.reset : State where
  textRom   := defaultTextRom
  params    := defaultParams
  requests  := []
  responses := []

end Sys2Proof.Machine
end

