-- ==== Sys2Proof/Machine/Flags.lean ====
section
/-! DEFINITION. The only status a command produces: the `STATUS` field of its own response. There
are no flags and no condition codes (10_state.md R23). -/

namespace Sys2Proof.Machine

/-- `STATUS` of a command that succeeded (60_exceptions.md R201). -/
def statusOk : BitVec 3 := 0

/-- The status code of an error, 60_exceptions.md R201. -/
def statusOf : Error → BitVec 3
  | .invalidArgument => 1
  | .overflow => 2
  | .unmappableCharacter => 3
  | .underflow => 4
  | .illegalCommand => 5

end Sys2Proof.Machine
end

