-- ==== Sys2Proof/Machine/Ops.lean ====
section
/-! DEFINITION. The operations every command shares: reading the request, the error response, which
is all that an exception is on this hardware (60_exceptions.md R200, R203, R207, R208), giving the
response, and what the host may do between steps (70_reset_and_hazards.md R238). -/

namespace Sys2Proof.Machine

/-- The error response, 60_exceptions.md R203: the code, and every other field zero or empty. -/
def errorResponse (e : Error) : Response where
  status := statusOf e
  obuf   := []
  otxt   := []
  res    := 0
  rneg   := false
  rmag   := 0
  rscale := 0

/-- How a command's pseudocode ends: `return` gives its response, `raise` the error response
(00_scope.md R13). -/
def finish : Except Error Response → Response
  | .ok resp => resp
  | .error e => errorResponse e

/-- The request the block works on next: the oldest one waiting. -/
def nextRequest (s : State) : Option Request := s.requests.head?

/-- One command as one atomic step (10_state.md R20): the oldest request is taken, `f` computes its
response from the request alone, and nothing else of the state changes. -/
def answer (s : State) (f : Request → Except Error Response) :
    Host.Outcome State Fault Refusal :=
  match s.requests with
  | [] => .fault .noRequest
  | r :: rest =>
    .next { s with requests := rest, responses := s.responses ++ [finish (f r)] }

/-- The answer to an illegal command word (30_encoding.md R67, 60_exceptions.md R201). Answering
and not refusing is a DESIGN CHOICE, unsafe (log 3). -/
def answerIllegal (s : State) : Host.Outcome State Fault Refusal :=
  answer s (fun _ => .error .illegalCommand)

/-- A step with no request waiting leaves everything as it is. DESIGN CHOICE, unsafe (log 4). -/
def idle (s : State) : Host.Outcome State Fault Refusal := .next s

/-- Host move, 70_reset_and_hazards.md R238: issue a request. -/
def issue (r : Request) (s : State) : State := { s with requests := s.requests ++ [r] }

/-- Host move, 70_reset_and_hazards.md R237: issue a program, a finite list of requests in order. -/
def issueProgram (program : List Request) (s : State) : State :=
  { s with requests := s.requests ++ program }

/-- Host move, 70_reset_and_hazards.md R230, R232 and R238: the reset signal. `TEXT_ROM` and the
parameters stay, a request not yet answered is lost, and answers already given stay with the caller
(log 10). -/
def resetSignal (s : State) : State := { s with requests := [] }

/-- `s` with the command word `w` in the oldest waiting request, or in a request of its own with no
operand where none is waiting (log 9). -/
def withCommand (w : Word) (s : State) : State :=
  match s.requests with
  | [] => { s with requests := [{ cmd := w }] }
  | r :: rest => { s with requests := { r with cmd := w } :: rest }

end Sys2Proof.Machine
end

