-- ==== Sys2Proof/Machine/Operands.lean ====
section
/-! DEFINITION. Operand forms: the slice primitives (20_memory.md R51), the byte orders (R46 to R49)
and the two halves of a byte (00_scope.md R17). Arithmetic on indices is in unbounded integers. -/

namespace Sys2Proof.Machine

/-- `BUF_LEN` as the 32-bit field of 30_encoding.md R68. -/
def Request.bufLen (r : Request) : Word := BitVec.ofNat 32 r.buf.length

/-- `TXT_LEN` as the 32-bit field of 30_encoding.md R68. -/
def Request.txtLen (r : Request) : Word := BitVec.ofNat 32 r.txt.length

/-- `OBUF_LEN` as the 32-bit field of 30_encoding.md R69. -/
def Response.obufLen (r : Response) : Word := BitVec.ofNat 32 r.obuf.length

/-- `OTXT_LEN` as the 32-bit field of 30_encoding.md R69. -/
def Response.otxtLen (r : Response) : Word := BitVec.ofNat 32 r.otxt.length

/-- The start index or offset: `sval_32(IDX)` if `A1P = 1`, else 0 (30_encoding.md R64, R72). -/
def startIndex (a1p : Bool) (idx : Word) : Int := if a1p then idx.toInt else 0

/-- The length of a text slice from `start`: `sval_32(LEN)` if `A2P = 1`, else the rest of the
operand (30_encoding.md R64, R72). -/
def sliceLength (total : Nat) (start : Int) (a2p : Bool) (len : Word) : Int :=
  if a2p then len.toInt else total - start

/-- `SliceRange`, 20_memory.md R51: the first element and the number of elements. -/
def sliceRange (total : Nat) (a1p : Bool) (idx : Word) (a2p : Bool) (len : Word) :
    Except Error (Nat × Nat) :=
  let s := startIndex a1p idx
  if s < 0 ∨ s > total then .error .invalidArgument
  else
    let n := sliceLength total s a2p len
    if n < 0 ∨ s + n > total then .error .invalidArgument
    else .ok (s.toNat, n.toNat)

/-- `SliceFixed`, 20_memory.md R51: the offset of an operand of `w` bytes. -/
def sliceFixed (total : Nat) (a1p : Bool) (idx : Word) (w : Nat) : Except Error Nat :=
  let o := startIndex a1p idx
  if o < 0 ∨ o + w > total then .error .invalidArgument
  else .ok o.toNat

/-- The `n` elements from index `s` on. -/
def elements {α : Type} (l : List α) (s n : Nat) : List α := (l.drop s).take n

/-- `B[i]`. Every use is at an index that a slice primitive or a length check has shown to be inside
the buffer, so the zero is never read. -/
def byteAt (b : List Byte) (i : Nat) : Byte := b.getD i 0

/-- The high nibble of a byte, bits 7:4 (00_scope.md R17). -/
def highNibble (b : Byte) : Nibble := b.extractLsb' 4 4

/-- The low nibble of a byte, bits 3:0 (00_scope.md R17). -/
def lowNibble (b : Byte) : Nibble := b.extractLsb' 0 4

/-- The nibble stream of a buffer, high nibble first (20_memory.md R48). -/
def nibblesOf (b : List Byte) : List Nibble := b.flatMap (fun x => [highNibble x, lowNibble x])

/-- The bytes of a nibble stream of even length, high nibble first (20_memory.md R48). -/
def bytesOfNibbles : List Nibble → List Byte
  | hi :: lo :: rest => (hi ++ lo) :: bytesOfNibbles rest
  | _ => []

/-- The two bytes of a 16-bit pattern, most significant first (20_memory.md R46). -/
def bigEndian16 (p : BitVec 16) : List Byte := [p.extractLsb' 8 8, p.extractLsb' 0 8]

/-- The four bytes of a 32-bit pattern, most significant first (20_memory.md R46). -/
def bigEndian32 (p : Word) : List Byte :=
  [p.extractLsb' 24 8, p.extractLsb' 16 8, p.extractLsb' 8 8, p.extractLsb' 0 8]

/-- The 16-bit pattern at offset `o` (20_memory.md R46). -/
def read16 (b : List Byte) (o : Nat) : BitVec 16 := byteAt b o ++ byteAt b (o + 1)

/-- The 32-bit pattern at offset `o` (20_memory.md R46). -/
def read32 (b : List Byte) (o : Nat) : Word :=
  byteAt b o ++ byteAt b (o + 1) ++ byteAt b (o + 2) ++ byteAt b (o + 3)

end Sys2Proof.Machine
end

