-- ==== Sys2Proof/Machine/Rounding.lean ====
section
/-! DEFINITION. Exact rational arithmetic and rounding: `RoundInt` (00_scope.md R14) and `RoundF32`
(41_hexfloat_codec.md R124). A non-negative rational is a pair of natural numbers, its numerator and
a positive denominator. DEDUCED, safe (log 19). -/

namespace Sys2Proof.Machine

/-- `RoundInt(num/den, mode)`, 00_scope.md R14: the nearest integer, and on a tie the even one of
the two or the upper one. -/
def roundInt (mode : Rounding) (num den : Nat) : Nat :=
  let n := num / den
  let r := num % den
  if 2 * r < den then n
  else if den < 2 * r then n + 1
  else
    match mode with
    | .rne => if n % 2 = 0 then n else n + 1
    | .rhu => n + 1

/-- The numerator of `num/den * 2^k`, over the denominator `scaleDen den k`. -/
def scaleNum (num : Nat) (k : Int) : Nat := num * 2 ^ k.toNat

/-- The denominator of `num/den * 2^k`, under the numerator `scaleNum num k`. -/
def scaleDen (den : Nat) (k : Int) : Nat := den * 2 ^ (-k).toNat

/-- `floor(log2(num/den))` of a positive rational: the `t` with `2^t <= num/den < 2^(t+1)`
(41_hexfloat_codec.md R124). -/
def floorLog2 (num den : Nat) : Int :=
  let a : Int := (num.log2 : Int) - den.log2
  if scaleDen den (-a) ≤ scaleNum num (-a) then a else a - 1

/-- `RoundF32(s, num/den)` of a positive rational, 41_hexfloat_codec.md R124: the nearest float32
pattern, ties to even, with gradual underflow, and Overflow in place of infinity. -/
def roundF32 (s : Bool) (num den : Nat) : Except Error Word :=
  let t := floorLog2 num den
  if -126 ≤ t then
    let sig := roundInt .rne (scaleNum num (23 - t)) (scaleDen den (23 - t))
    let sig' := if sig = 2 ^ 24 then 2 ^ 23 else sig
    let t' := if sig = 2 ^ 24 then t + 1 else t
    if t' > 127 then .error .overflow
    else .ok (BitVec.ofBool s ++ BitVec.ofInt 8 (t' + 127) ++ BitVec.ofNat 23 sig')
  else
    let fld := roundInt .rne (scaleNum num 149) (scaleDen den 149)
    .ok (BitVec.ofBool s ++ BitVec.ofNat 31 fld)

/-- The sign of a float32 pattern, bit 31 (41_hexfloat_codec.md R123). -/
def f32Sign (f : Word) : Bool := f.getLsbD 31

/-- The biased exponent `E` of a float32 pattern, bits 30:23 (41_hexfloat_codec.md R123). -/
def f32Exponent (f : Word) : Nat := (f.extractLsb' 23 8).toNat

/-- The fraction `F` of a float32 pattern, bits 22:0 (41_hexfloat_codec.md R123). -/
def f32Fraction (f : Word) : Nat := (f.extractLsb' 0 23).toNat

/-- The integer significand `S` of a finite float32 (41_hexfloat_codec.md R123, R125). -/
def f32Significand (f : Word) : Nat :=
  if f32Exponent f = 0 then f32Fraction f else 2 ^ 23 + f32Fraction f

/-- The exponent `b` of a finite float32, whose magnitude is `S * 2^b` (41_hexfloat_codec.md R123,
R125). -/
def f32Scale (f : Word) : Int := if f32Exponent f = 0 then -149 else (f32Exponent f : Int) - 150

end Sys2Proof.Machine
end

