-- ==== Sys2Proof/Machine/HexFloat.lean ====
section
/-! DEFINITION. The IBM hex-float converter: HFP_ENC and HFP_DEC (41_hexfloat_codec.md). -/

namespace Sys2Proof.Machine

/-- An HFP word from its sign, biased exponent and mantissa: `{s, X[6:0]}` and the mantissa, most
significant byte first (41_hexfloat_codec.md R120, R125). -/
def hfpBytes (s : Bool) (x : Int) (mt : Nat) : List Byte :=
  let m : BitVec 24 := BitVec.ofNat 24 mt
  [BitVec.ofBool s ++ BitVec.ofInt 7 x, m.extractLsb' 16 8, m.extractLsb' 8 8, m.extractLsb' 0 8]

/-- Steps 2 to 6 of HFP_ENC for the nonzero magnitude `S * 2^b` (41_hexfloat_codec.md R125). The
renormalising branch and the range checks of step 6 stand as the rule has them, although no float32
reaches them (R126, 92_eei_decisions.md D37). -/
def hfpEncodeMagnitude (mode : Rounding) (s : Bool) (S : Nat) (b : Int) :
    Except Error (List Byte) :=
  let t : Int := (S.log2 : Int) + b
  let e := t / 4 + 1
  let k := b + 24 - 4 * e
  let mt := roundInt mode (scaleNum S k) (scaleDen 1 k)
  let mt' := if mt = 2 ^ 24 then 2 ^ 20 else mt
  let e' := if mt = 2 ^ 24 then e + 1 else e
  let x := e' + 64
  if x > 127 then .error .overflow
  else if x < 0 then .error .underflow
  else .ok (hfpBytes s x mt')

/-- The bytes HFP_ENC makes of a float32 pattern, 41_hexfloat_codec.md R125. -/
def hfpEncode (mode : Rounding) (f : Word) : Except Error (List Byte) :=
  if f32Exponent f = 0xFF ∧ f32Fraction f ≠ 0 then .error .invalidArgument
  else if f32Exponent f = 0xFF ∧ f32Fraction f = 0 then .error .overflow
  else if f32Exponent f = 0 ∧ f32Fraction f = 0 then .ok [0x00, 0x00, 0x00, 0x00]
  else hfpEncodeMagnitude mode (f32Sign f) (f32Significand f) (f32Scale f)

/-- The result of HFP_ENC, 41_hexfloat_codec.md R125. -/
def hfpEncResult (mode : Rounding) (r : Request) : Except Error Response :=
  match hfpEncode mode r.arg0 with
  | .error e => .error e
  | .ok out => .ok { obuf := out }

/-- The sign of an HFP word, bit 7 of byte 0 (41_hexfloat_codec.md R120). -/
def hfpSign (h0 : Byte) : Bool := h0.getLsbD 7

/-- The biased exponent `X` of an HFP word, bits 6:0 of byte 0 (41_hexfloat_codec.md R120). -/
def hfpExponent (h0 : Byte) : Nat := (h0.extractLsb' 0 7).toNat

/-- The mantissa `Mt` of an HFP word, `{H[1], H[2], H[3]}` (41_hexfloat_codec.md R120). -/
def hfpMantissa (h1 h2 h3 : Byte) : Nat := (h1 ++ h2 ++ h3 : BitVec 24).toNat

/-- The float32 pattern HFP_DEC makes of an HFP word, 41_hexfloat_codec.md R127: the exact magnitude
`Mt * 2^(4*X - 280)` rounded once. -/
def hfpDecode (h0 h1 h2 h3 : Byte) : Except Error Word :=
  let s := hfpSign h0
  let k : Int := 4 * (hfpExponent h0 : Int) - 280
  let mt := hfpMantissa h1 h2 h3
  if mt = 0 then .ok (BitVec.ofBool s ++ (0 : BitVec 31))
  else roundF32 s (scaleNum mt k) (scaleDen 1 k)

/-- The result of HFP_DEC, 41_hexfloat_codec.md R127. -/
def hfpDecResult (a1p : Bool) (r : Request) : Except Error Response :=
  if !r.bufP then .error .invalidArgument
  else
    match sliceFixed r.buf.length a1p r.idx 4 with
    | .error e => .error e
    | .ok o =>
      match hfpDecode (byteAt r.buf o) (byteAt r.buf (o + 1)) (byteAt r.buf (o + 2))
          (byteAt r.buf (o + 3)) with
      | .error e => .error e
      | .ok f => .ok { res := f }

/-- HFP_ENC, 41_hexfloat_codec.md R125. -/
def execHfpEnc (s : State) : Host.Outcome State Fault Refusal :=
  answer s (hfpEncResult s.params.hfpRound)

/-- HFP_DEC, 41_hexfloat_codec.md R127. -/
def execHfpDec (a1p : Bool) (s : State) : Host.Outcome State Fault Refusal :=
  answer s (hfpDecResult a1p)

end Sys2Proof.Machine
end

