-- ==== Sys2Proof/Machine/IntegerCodec.lean ====
section
/-! DEFINITION. The big-endian integer codec: I16_ENC, I32_ENC, I16_DEC and I32_DEC
(43_integer_codec.md). -/

namespace Sys2Proof.Machine

/-- The result of I16_ENC, 43_integer_codec.md R181: `ARG0[31:16]` is not read. -/
def i16EncResult (r : Request) : Except Error Response :=
  .ok { obuf := bigEndian16 (r.arg0.extractLsb' 0 16) }

/-- The result of I32_ENC, 43_integer_codec.md R182. -/
def i32EncResult (r : Request) : Except Error Response :=
  .ok { obuf := bigEndian32 r.arg0 }

/-- The result of I16_DEC, 43_integer_codec.md R183. -/
def i16DecResult (a1p : Bool) (r : Request) : Except Error Response :=
  if !r.bufP then .error .invalidArgument
  else
    match sliceFixed r.buf.length a1p r.idx 2 with
    | .error e => .error e
    | .ok o => .ok { res := (read16 r.buf o).signExtend 32 }

/-- The result of I32_DEC, 43_integer_codec.md R184. -/
def i32DecResult (a1p : Bool) (r : Request) : Except Error Response :=
  if !r.bufP then .error .invalidArgument
  else
    match sliceFixed r.buf.length a1p r.idx 4 with
    | .error e => .error e
    | .ok o => .ok { res := read32 r.buf o }

/-- I16_ENC, 43_integer_codec.md R181. -/
def execI16Enc (s : State) : Host.Outcome State Fault Refusal := answer s i16EncResult

/-- I32_ENC, 43_integer_codec.md R182. -/
def execI32Enc (s : State) : Host.Outcome State Fault Refusal := answer s i32EncResult

/-- I16_DEC, 43_integer_codec.md R183. -/
def execI16Dec (a1p : Bool) (s : State) : Host.Outcome State Fault Refusal :=
  answer s (i16DecResult a1p)

/-- I32_DEC, 43_integer_codec.md R184. -/
def execI32Dec (a1p : Bool) (s : State) : Host.Outcome State Fault Refusal :=
  answer s (i32DecResult a1p)

end Sys2Proof.Machine
end

