-- ==== Sys2Proof/Machine/PackedDecimal.lean ====
section
/-! DEFINITION. The BCD encoder and decoder: PD_ENC, PD_DEC and ZD_DEC
(42_packed_decimal_codec.md). -/

namespace Sys2Proof.Machine

/-- The decimal digits of `m`, most significant first, for `m < 10^fuel`. -/
def digitsWithin : Nat → Nat → List Nibble
  | 0, _ => []
  | fuel + 1, m =>
    if m < 10 then [BitVec.ofNat 4 m]
    else digitsWithin fuel (m / 10) ++ [BitVec.ofNat 4 (m % 10)]

/-- `Digits(M)`, 42_packed_decimal_codec.md R152: no leading zeros, and `[0]` for zero. A number has
at most as many decimal digits as binary digits. -/
def digits (m : Nat) : List Nibble := digitsWithin (m.log2 + 1) m

/-- The number a digit sequence denotes, most significant first (42_packed_decimal_codec.md
R155, R156). -/
def valueOfDigits (d : List Nibble) : Nat := d.foldl (fun acc n => 10 * acc + n.toNat) 0

/-- Every nibble is a decimal digit (42_packed_decimal_codec.md R155, R156). -/
def allDigits (d : List Nibble) : Bool := d.all (fun n => n.toNat ≤ 9)

/-- The packed sign: what a sign nibble says, in the order of PD_DEC's checks
(42_packed_decimal_codec.md R153, R155). -/
def packedSign (p : Params) (n : Nibble) : Except Error Bool :=
  if n ∈ p.pdPosAccept then .ok false
  else if n ∈ p.pdNegAccept then .ok true
  else .error .invalidArgument

/-- The zoned sign: what the final zone says, in the order of ZD_DEC's checks
(42_packed_decimal_codec.md R156). -/
def zonedSign (p : Params) (z : Nibble) : Except Error Bool :=
  if z ∈ p.pdNegAccept then .ok true
  else if z ∈ p.pdPosAccept ∨ z ∈ p.zdPosExtra then .ok false
  else .error .invalidArgument

/-- The content checks that follow the sign in PD_DEC and ZD_DEC: digits, then the coefficient's
width (42_packed_decimal_codec.md R155, R156). -/
def decimalResult (neg : Bool) (d : List Nibble) (scale : Byte) : Except Error Response :=
  if !allDigits d then .error .invalidArgument
  else
    let m := valueOfDigits d
    if m ≥ 2 ^ Config.pdCoeffBits then .error .overflow
    else .ok { rneg := neg, rmag := BitVec.ofNat 96 m, rscale := scale }

/-- The result of PD_ENC, 42_packed_decimal_codec.md R154. -/
def pdEncResult (p : Params) (r : Request) : Except Error Response :=
  let l := r.blen.toNat
  let m := r.dmag.toNat
  let d := digits m
  let n := d.length
  if n + 1 > 2 * l then .error .overflow
  else
    let sg := if r.dneg ∧ m ≠ 0 then p.pdNegSign else p.pdPosSign
    .ok { obuf := bytesOfNibbles (List.replicate (2 * l - 1 - n) 0 ++ d ++ [sg]) }

/-- The result of PD_DEC, 42_packed_decimal_codec.md R155. -/
def pdDecResult (p : Params) (r : Request) : Except Error Response :=
  if !r.bufP then .error .invalidArgument
  else
    let l := r.blen.toNat
    if l = 0 then .error .invalidArgument
    else if r.buf.length < l then .error .invalidArgument
    else
      let n := nibblesOf (elements r.buf 0 l)
      match packedSign p (n.getLastD 0) with
      | .error e => .error e
      | .ok neg => decimalResult neg n.dropLast r.scale

/-- The result of ZD_DEC, 42_packed_decimal_codec.md R156. -/
def zdDecResult (p : Params) (r : Request) : Except Error Response :=
  if !r.bufP then .error .invalidArgument
  else if r.buf.length = 0 then .error .invalidArgument
  else
    match zonedSign p (highNibble (r.buf.getLastD 0)) with
    | .error e => .error e
    | .ok neg => decimalResult neg (r.buf.map lowNibble) r.scale

/-- PD_ENC, 42_packed_decimal_codec.md R154. -/
def execPdEnc (s : State) : Host.Outcome State Fault Refusal :=
  answer s (pdEncResult s.params)

/-- PD_DEC, 42_packed_decimal_codec.md R155. -/
def execPdDec (s : State) : Host.Outcome State Fault Refusal :=
  answer s (pdDecResult s.params)

/-- ZD_DEC, 42_packed_decimal_codec.md R156. -/
def execZdDec (s : State) : Host.Outcome State Fault Refusal :=
  answer s (zdDecResult s.params)

end Sys2Proof.Machine
end

