-- ==== Sys2Proof/Machine/TextCodec.lean ====
section
/-! DEFINITION. The text unit: TXT_ENC and TXT_DEC (40_text_codec.md). -/

namespace Sys2Proof.Machine

/-- The loop of TXT_ENC (40_text_codec.md R101, R102): each scalar to its code, in order, ending at
the first scalar without one. -/
def encodeScalars (rom : TextRom) : List Scalar → Except Error (List Byte)
  | [] => .ok []
  | c :: rest =>
    match romInv rom c with
    | none => .error .unmappableCharacter
    | some i =>
      match encodeScalars rom rest with
      | .error e => .error e
      | .ok out => .ok (i :: out)

/-- The result of TXT_ENC, 40_text_codec.md R101. -/
def txtEncResult (rom : TextRom) (a1p a2p : Bool) (r : Request) : Except Error Response :=
  if !r.txtP then .error .invalidArgument
  else
    match sliceRange r.txt.length a1p r.idx a2p r.len with
    | .error e => .error e
    | .ok (s, n) =>
      match encodeScalars rom (elements r.txt s n) with
      | .error e => .error e
      | .ok out => .ok { obuf := out }

/-- The result of TXT_DEC, 40_text_codec.md R110. -/
def txtDecResult (rom : TextRom) (a1p a2p : Bool) (r : Request) : Except Error Response :=
  if !r.bufP then .error .invalidArgument
  else
    match sliceRange r.buf.length a1p r.idx a2p r.len with
    | .error e => .error e
    | .ok (s, n) => .ok { otxt := (elements r.buf s n).map (romRead rom) }

/-- TXT_ENC, 40_text_codec.md R101. -/
def execTxtEnc (a1p a2p : Bool) (s : State) : Host.Outcome State Fault Refusal :=
  answer s (txtEncResult s.textRom a1p a2p)

/-- TXT_DEC, 40_text_codec.md R110. -/
def execTxtDec (a1p a2p : Bool) (s : State) : Host.Outcome State Fault Refusal :=
  answer s (txtDecResult s.textRom a1p a2p)

end Sys2Proof.Machine
end

