-- ==== Sys2Proof/Machine/Dispatch.lean ====
section
/-! DEFINITION. One arm for each command: its meaning (30_encoding.md R62). -/

namespace Sys2Proof.Machine

/-- A command executed at a state: the oldest waiting request is answered (10_state.md R20). -/
def exec (i : Instr) (s : State) : Host.Outcome State Fault Refusal :=
  match i with
  | .txtEnc a1p a2p => Sys2Proof.Machine.execTxtEnc a1p a2p s
  | .txtDec a1p a2p => Sys2Proof.Machine.execTxtDec a1p a2p s
  | .hfpEnc => Sys2Proof.Machine.execHfpEnc s
  | .hfpDec a1p => Sys2Proof.Machine.execHfpDec a1p s
  | .pdEnc => Sys2Proof.Machine.execPdEnc s
  | .pdDec => Sys2Proof.Machine.execPdDec s
  | .zdDec => Sys2Proof.Machine.execZdDec s
  | .i16Enc => Sys2Proof.Machine.execI16Enc s
  | .i32Enc => Sys2Proof.Machine.execI32Enc s
  | .i16Dec a1p => Sys2Proof.Machine.execI16Dec a1p s
  | .i32Dec a1p => Sys2Proof.Machine.execI32Dec a1p s

end Sys2Proof.Machine
end

