-- ==== Sys2Proof/Machine/Step.lean ====
section
/-! DEFINITION. One step: the oldest waiting request is decoded and executed, or answered as
illegal (30_encoding.md R67). The block fetches nothing and has no program counter (10_state.md
R22). -/

namespace Sys2Proof.Machine

/-- One step. Decoding comes before any operand is read (30_encoding.md R67, 60_exceptions.md
R205). With no request waiting the state stays as it is (log 4). -/
def step (s : State) : Host.Outcome State Fault Refusal :=
  match nextRequest s with
  | none => idle s
  | some r =>
    match decode r.cmd with
    | .ok i => exec i s
    | .error _ => answerIllegal s

/-- `s` with the command word `w`, numbered as spec/opcode_table.json numbers it, where the next
step reads its command (log 9). -/
def State.withFetchWord (s : State) (nbits w : Nat) : State := withCommand (tableWord nbits w) s

end Sys2Proof.Machine
end

