-- ==== Sys2Proof/Machine/Assembler.lean ====
section
/-! DEFINITION. The assembler of 30_encoding.md R73 and its pseudo-instruction PD_ENCS (R74), from a
line taken apart into its operands to the request it stands for. Machine/AsmText.lean reads the text
of a line. A line the assembler rejects gives no request. -/

namespace Sys2Proof.Machine

/-- The bracketed operands of a text command: none, a start, or a start and a length
(30_encoding.md R73). -/
inductive SliceArgs where
  | whole
  | suffix (start : Int)
  | span (start len : Int)
  deriving DecidableEq, Repr

/-- A decimal literal, `(-1)^neg * coeff * 10^(-places)` (30_encoding.md R73, R74). -/
structure DecimalLit where
  neg    : Bool
  coeff  : Nat
  places : Nat
  deriving DecidableEq, Repr

/-- The operand of an HFP_ENC line: a bit pattern or a decimal float literal (30_encoding.md R73). -/
inductive FloatLit where
  | pattern (bits : Word)
  | decimal (d : DecimalLit)
  deriving DecidableEq, Repr

/-- A line of assembler, one form for each line of 30_encoding.md R73, and PD_ENCS (R74). An operand
that is `none` is the literal `null`. -/
inductive AsmLine where
  | txtEnc (text : Option (List Scalar)) (args : SliceArgs)
  | txtDec (bytes : Option (List Byte)) (args : SliceArgs)
  | hfpEnc (value : FloatLit)
  | hfpDec (bytes : Option (List Byte)) (off : Option Int)
  | pdEnc (value : Int) (length : Nat)
  | pdEncs (value : DecimalLit) (scale length : Nat)
  | pdDec (bytes : Option (List Byte)) (length scale : Nat)
  | zdDec (bytes : Option (List Byte)) (scale : Nat)
  | i16Enc (value : Int)
  | i32Enc (value : Int)
  | i16Dec (bytes : Option (List Byte)) (off : Option Int)
  | i32Dec (bytes : Option (List Byte)) (off : Option Int)
  deriving DecidableEq, Repr

/-- `pat_32` of an integer in `-2^31..2^31-1` (30_encoding.md R73). -/
def indexPattern (i : Int) : Option Word :=
  if -2 ^ 31 ≤ i ∧ i < 2 ^ 31 then some (BitVec.ofInt 32 i) else none

/-- An integer in `0..255` as a byte (30_encoding.md R73). -/
def byteOperand (n : Nat) : Option Byte := if n ≤ 255 then some (BitVec.ofNat 8 n) else none

/-- A request with a byte operand, `null` being `BUF_P = 0` (30_encoding.md R73). That `BUF` is then
empty, and that every field not named is zero or empty, is a DESIGN CHOICE, unsafe (log 20). -/
def withBytes (i : Instr) (bytes : Option (List Byte)) : Request :=
  { cmd := encode i, bufP := bytes.isSome, buf := bytes.getD [] }

/-- A request with a text operand, `null` being `TXT_P = 0` (30_encoding.md R73). That `TXT` is then
empty, and that every field not named is zero or empty, is a DESIGN CHOICE, unsafe (log 20). -/
def withText (i : Instr) (text : Option (List Scalar)) : Request :=
  { cmd := encode i, txtP := text.isSome, txt := text.getD [] }

/-- The request of a text command: writing a bracketed operand sets its presence bit
(30_encoding.md R73). -/
def sliceLine (mk : Bool → Bool → Instr) (operand : Instr → Request) : SliceArgs → Option Request
  | .whole => some (operand (mk false false))
  | .suffix start =>
    match indexPattern start with
    | none => none
    | some i => some { operand (mk true false) with idx := i }
  | .span start len =>
    match indexPattern start, indexPattern len with
    | some i, some n => some { operand (mk true true) with idx := i, len := n }
    | _, _ => none

/-- The request of a fixed-width decode with an optional offset (30_encoding.md R73). -/
def offsetLine (mk : Bool → Instr) (bytes : Option (List Byte)) : Option Int → Option Request
  | none => some (withBytes (mk false) bytes)
  | some off =>
    match indexPattern off with
    | none => none
    | some i => some { withBytes (mk true) bytes with idx := i }

/-- The request of `PD_ENC`: the coefficient is rejected from `2^96` on (30_encoding.md R73). -/
def pdEncLine (neg : Bool) (m length : Nat) : Option Request :=
  match byteOperand length with
  | none => none
  | some l =>
    if m ≥ 2 ^ Config.pdCoeffBits then none
    else some { cmd := encode .pdEnc, dneg := neg, dmag := BitVec.ofNat 96 m, blen := l }

/-- The float32 pattern of an HFP_ENC operand. A decimal literal is rounded to the nearest float32,
ties to even, a zero keeps its written sign, and a literal beyond the float32 range is rejected.
DESIGN CHOICE, unsafe (log 14). -/
def floatPattern : FloatLit → Option Word
  | .pattern bits => some bits
  | .decimal d =>
    if d.coeff = 0 then some (BitVec.ofBool d.neg ++ (0 : BitVec 31))
    else (roundF32 d.neg d.coeff (10 ^ d.places)).toOption

/-- The request an assembler line stands for, 30_encoding.md R73 and R74. The request fields that a
line does not name, which R70 has the command ignore, are zero or empty. DESIGN CHOICE, unsafe
(log 20). -/
def assemble : AsmLine → Option Request
  | .txtEnc text args => sliceLine .txtEnc (withText · text) args
  | .txtDec bytes args => sliceLine .txtDec (withBytes · bytes) args
  | .hfpEnc value =>
    match floatPattern value with
    | none => none
    | some f => some { cmd := encode .hfpEnc, arg0 := f }
  | .hfpDec bytes off => offsetLine .hfpDec bytes off
  | .pdEnc value length => pdEncLine (value < 0) value.natAbs length
  | .pdEncs value scale length =>
    let m := value.coeff * 10 ^ scale
    if scale > 255 ∨ m % 10 ^ value.places ≠ 0 then none
    else pdEncLine (value.neg && m ≠ 0) (m / 10 ^ value.places) length
  | .pdDec bytes length scale =>
    match byteOperand length, byteOperand scale with
    | some l, some k => some { withBytes .pdDec bytes with blen := l, scale := k }
    | _, _ => none
  | .zdDec bytes scale =>
    match byteOperand scale with
    | none => none
    | some k => some { withBytes .zdDec bytes with scale := k }
  | .i16Enc value =>
    if -2 ^ 15 ≤ value ∧ value < 2 ^ 15 then
      some { cmd := encode .i16Enc, arg0 := BitVec.ofInt 32 value }
    else none
  | .i32Enc value =>
    match indexPattern value with
    | none => none
    | some p => some { cmd := encode .i32Enc, arg0 := p }
  | .i16Dec bytes off => offsetLine .i16Dec bytes off
  | .i32Dec bytes off => offsetLine .i32Dec bytes off

/-- The presence bits of a text line (30_encoding.md R73). -/
def SliceArgs.bits : SliceArgs → Bool × Bool
  | .whole => (false, false)
  | .suffix _ => (true, false)
  | .span _ _ => (true, true)

/-- The command an assembler line names, with the presence bits its bracketed operands set
(30_encoding.md R73, R74). -/
def lineCommand : AsmLine → Instr
  | .txtEnc _ args => .txtEnc args.bits.1 args.bits.2
  | .txtDec _ args => .txtDec args.bits.1 args.bits.2
  | .hfpEnc _ => .hfpEnc
  | .hfpDec _ off => .hfpDec off.isSome
  | .pdEnc _ _ => .pdEnc
  | .pdEncs _ _ _ => .pdEnc
  | .pdDec _ _ _ => .pdDec
  | .zdDec _ _ => .zdDec
  | .i16Enc _ => .i16Enc
  | .i32Enc _ => .i32Enc
  | .i16Dec _ off => .i16Dec off.isSome
  | .i32Dec _ off => .i32Dec off.isSome

/-- A program of assembler lines as the list of its requests (70_reset_and_hazards.md R237). -/
def assembleProgram : List AsmLine → Option (List Request)
  | [] => some []
  | line :: rest =>
    match assemble line, assembleProgram rest with
    | some r, some rs => some (r :: rs)
    | _, _ => none

end Sys2Proof.Machine
end

