-- ==== Sys2Proof/Machine/AsmText.lean ====
section
/-! DEFINITION. The text of an assembler line, 30_encoding.md R73 and R74: a mnemonic, then operands
separated by commas. What R73 leaves open of the lexical form (blanks, the forms of a number, that a
string has no escapes) is a DESIGN CHOICE, unsafe (log 14). A line that does not have the form gives
no request. -/

namespace Sys2Proof.Machine

/-- A blank. -/
def isBlank (c : Char) : Bool := c = ' ' || c = '\t' || c = '\r'

/-- A text without the blanks around it. -/
def trim (t : List Char) : List Char :=
  ((t.dropWhile isBlank).reverse.dropWhile isBlank).reverse

/-- The parts of a text between separators. A separator inside a string literal does not count, and
none inside a bracketed list where `lists` is set. `q` and `b` say whether the text begins inside
a string literal or a list. -/
def splitAtTop (sep : Char) (lists : Bool) : Bool → Bool → List Char → List (List Char)
  | _, _, [] => [[]]
  | q, b, c :: rest =>
    if c = sep ∧ q = false ∧ b = false then [] :: splitAtTop sep lists q b rest
    else
      let q' := if c = '"' ∧ b = false then !q else q
      let b' := if q || !lists then b else if c = '[' then true else if c = ']' then false else b
      match splitAtTop sep lists q' b' rest with
      | [] => [[c]]
      | x :: xs => (c :: x) :: xs

/-- The digits in the order of their values, a letter in upper case (00_scope.md R10). -/
def digitSymbols : List Char := "0123456789ABCDEF".toList

/-- The number a text of digits denotes in base ten or sixteen, most significant digit first. A letter
may be in either case (log 14). A text without digits is no number. -/
def numeral (base : Nat) (t : List Char) : Option Nat :=
  let places := t.map (fun c => (digitSymbols.take base).idxOf? c.toUpper)
  if places.isEmpty || places.any Option.isNone then none
  else some (places.reduceOption.foldl (fun n d => base * n + d) 0)

/-- A natural number, decimal or `0x` and hexadecimal. -/
def natLiteral : List Char → Option Nat
  | '0' :: 'x' :: h => numeral 16 h
  | t => numeral 10 t

/-- An integer: a natural number, perhaps after a minus sign. -/
def intLiteral : List Char → Option Int
  | '-' :: t => (natLiteral t).map (fun n => -(n : Int))
  | t => (natLiteral t).map (fun n => (n : Int))

/-- The digits before and after the decimal point, as a coefficient and a number of places. -/
def pointLiteral (t : List Char) : Option (Nat × Nat) :=
  match splitAtTop '.' false false false t with
  | [whole] => (numeral 10 whole).map (fun n => (n, 0))
  | [whole, part] =>
    match numeral 10 whole, numeral 10 part with
    | some _, some _ => (numeral 10 (whole ++ part)).map (fun n => (n, part.length))
    | _, _ => none
  | _ => none

/-- A decimal literal without its sign, with an exponent of ten after an `e` where one is
written. -/
def unsignedDecimal (neg : Bool) (t : List Char) : Option DecimalLit :=
  match splitAtTop 'e' false false false t with
  | [m] => (pointLiteral m).map (fun p => ⟨neg, p.1, p.2⟩)
  | [m, e] =>
    match pointLiteral m, intLiteral e with
    | some (n, places), some x =>
      some ⟨neg, n * 10 ^ (x - places).toNat, ((places : Int) - x).toNat⟩
    | _, _ => none
  | _ => none

/-- A decimal literal (30_encoding.md R73, R74). -/
def decimalLiteral : List Char → Option DecimalLit
  | '-' :: t => unsignedDecimal true t
  | t => unsignedDecimal false t

/-- A float operand: `0x` and eight hexadecimal digits, or a decimal float literal
(30_encoding.md R73). -/
def floatOperand : List Char → Option FloatLit
  | '0' :: 'x' :: h =>
    if h.length = 8 then (numeral 16 h).map (fun n => .pattern (BitVec.ofNat 32 n)) else none
  | t => (decimalLiteral t).map .decimal

/-- The literal `null`. -/
def nullLiteral : List Char := ['n', 'u', 'l', 'l']

/-- A byte of a list: `0x` and two hexadecimal digits. -/
def byteLiteral : List Char → Option Byte
  | ['0', 'x', h, l] => (numeral 16 [h, l]).map (BitVec.ofNat 8)
  | _ => none

/-- What stands between a first and a last character. -/
def between (first last : Char) (t : List Char) : Option (List Char) :=
  if t.head? = some first ∧ t.getLast? = some last ∧ 2 ≤ t.length then some t.tail.dropLast
  else none

/-- The literals of a list, each read by `f`. -/
def allOf {α : Type} (f : List Char → Option α) : List (List Char) → Option (List α)
  | [] => some []
  | t :: rest =>
    match f (trim t), allOf f rest with
    | some x, some xs => some (x :: xs)
    | _, _ => none

/-- A byte operand: a list in brackets, or `null` (30_encoding.md R73). -/
def bytesOperand (t : List Char) : Option (Option (List Byte)) :=
  if t = nullLiteral then some none
  else
    match between '[' ']' t with
    | none => none
    | some inner =>
      if trim inner = [] then some (some [])
      else (allOf byteLiteral (splitAtTop ',' false false false inner)).map some

/-- A text operand: a string literal, or `null` (30_encoding.md R73). -/
def textOperand (t : List Char) : Option (Option (List Scalar)) :=
  if t = nullLiteral then some none
  else
    match between '"' '"' t with
    | none => none
    | some inner =>
      if '"' ∈ inner then none else some (some (inner.map (fun c => BitVec.ofNat 21 c.toNat)))

/-- The bracketed operands of a text command (30_encoding.md R73). -/
def sliceArgs : List (List Char) → Option SliceArgs
  | [] => some .whole
  | [s] => (intLiteral s).map .suffix
  | [s, n] =>
    match intLiteral s, intLiteral n with
    | some s, some n => some (.span s n)
    | _, _ => none
  | _ => none

/-- The bracketed operand of a fixed-width decode (30_encoding.md R73). -/
def offsetArg : List (List Char) → Option (Option Int)
  | [] => some none
  | [o] => (intLiteral o).map some
  | _ => none

/-- A line with a byte operand and an optional offset. -/
def offsetForm (mk : Option (List Byte) → Option Int → AsmLine) :
    List (List Char) → Option AsmLine
  | [] => none
  | b :: rest =>
    match bytesOperand b, offsetArg rest with
    | some b, some o => some (mk b o)
    | _, _ => none

/-- The mnemonics of 30_encoding.md R73 and R74. -/
inductive Mnemonic where
  | txtEnc | txtDec | hfpEnc | hfpDec | pdEnc | pdEncs | pdDec | zdDec
  | i16Enc | i32Enc | i16Dec | i32Dec
  deriving DecidableEq, Repr

/-- How a mnemonic is written. -/
def mnemonicTable : List (List Char × Mnemonic) :=
  [(['T', 'X', 'T', '_', 'E', 'N', 'C'], .txtEnc), (['T', 'X', 'T', '_', 'D', 'E', 'C'], .txtDec),
   (['H', 'F', 'P', '_', 'E', 'N', 'C'], .hfpEnc), (['H', 'F', 'P', '_', 'D', 'E', 'C'], .hfpDec),
   (['P', 'D', '_', 'E', 'N', 'C'], .pdEnc), (['P', 'D', '_', 'E', 'N', 'C', 'S'], .pdEncs),
   (['P', 'D', '_', 'D', 'E', 'C'], .pdDec), (['Z', 'D', '_', 'D', 'E', 'C'], .zdDec),
   (['I', '1', '6', '_', 'E', 'N', 'C'], .i16Enc), (['I', '3', '2', '_', 'E', 'N', 'C'], .i32Enc),
   (['I', '1', '6', '_', 'D', 'E', 'C'], .i16Dec), (['I', '3', '2', '_', 'D', 'E', 'C'], .i32Dec)]

/-- The form of a line, by its mnemonic (30_encoding.md R73, R74). -/
def lineForm : Mnemonic → List (List Char) → Option AsmLine
  | .txtEnc, t :: rest =>
    match textOperand t, sliceArgs rest with
    | some t, some a => some (.txtEnc t a)
    | _, _ => none
  | .txtDec, b :: rest =>
    match bytesOperand b, sliceArgs rest with
    | some b, some a => some (.txtDec b a)
    | _, _ => none
  | .hfpEnc, [f] => (floatOperand f).map .hfpEnc
  | .hfpDec, ops => offsetForm .hfpDec ops
  | .pdEnc, [v, l] =>
    match intLiteral v, natLiteral l with
    | some v, some l => some (.pdEnc v l)
    | _, _ => none
  | .pdEncs, [v, k, l] =>
    match decimalLiteral v, natLiteral k, natLiteral l with
    | some v, some k, some l => some (.pdEncs v k l)
    | _, _, _ => none
  | .pdDec, [b, l, k] =>
    match bytesOperand b, natLiteral l, natLiteral k with
    | some b, some l, some k => some (.pdDec b l k)
    | _, _, _ => none
  | .zdDec, [b, k] =>
    match bytesOperand b, natLiteral k with
    | some b, some k => some (.zdDec b k)
    | _, _ => none
  | .i16Enc, [v] => (intLiteral v).map .i16Enc
  | .i32Enc, [v] => (intLiteral v).map .i32Enc
  | .i16Dec, ops => offsetForm .i16Dec ops
  | .i32Dec, ops => offsetForm .i32Dec ops
  | .txtEnc, _ => none
  | .txtDec, _ => none
  | .hfpEnc, _ => none
  | .pdEnc, _ => none
  | .pdEncs, _ => none
  | .pdDec, _ => none
  | .zdDec, _ => none
  | .i16Enc, _ => none
  | .i32Enc, _ => none

/-- The line a text stands for: the mnemonic up to the first blank, then the operands. -/
def readLine (text : List Char) : Option AsmLine :=
  let t := trim text
  let word := t.takeWhile (fun c => !isBlank c)
  let rest := trim (t.drop word.length)
  let operands := if rest = [] then [] else (splitAtTop ',' true false false rest).map trim
  match mnemonicTable.lookup word with
  | none => none
  | some m => lineForm m operands

/-- The request a line of text stands for (30_encoding.md R73, R74). -/
def assembleText (text : List Char) : Option Request :=
  match readLine text with
  | none => none
  | some line => assemble line

/-- The requests of a program text, one command on each line; a line of blanks is no command
(30_encoding.md R73). -/
def assembleSource (text : List Char) : Option (List Request) :=
  let lines := (text.splitOn '\n').map trim
  allOf assembleText (lines.filter (fun l => l ≠ []))

end Sys2Proof.Machine
end

