-- ==== Sys2Proof/Machine/Denote.lean ====
section
/-! DEFINITION. What the formats denote, as rational numbers, and the rounding primitive over
rationals: the terms in which the spec says what the converters compute. No meaning uses this file;
the statements do. -/

namespace Sys2Proof.Machine

/-- `(-1)^s`. -/
def signFactor (s : Bool) : ℚ := if s then -1 else 1

/-- `RoundInt(q, mode)` over rationals, 00_scope.md R14. -/
def roundRat (mode : Rounding) (q : ℚ) : ℤ :=
  let n := ⌊q⌋
  let r := q - n
  if r < 1 / 2 then n
  else if 1 / 2 < r then n + 1
  else
    match mode with
    | .rne => if n % 2 = 0 then n else n + 1
    | .rhu => n + 1

/-- A NaN pattern (41_hexfloat_codec.md R123). -/
abbrev IsNaN (f : Word) : Prop := f32Exponent f = 0xFF ∧ f32Fraction f ≠ 0

/-- An infinity pattern (41_hexfloat_codec.md R123). -/
abbrev IsInfinity (f : Word) : Prop := f32Exponent f = 0xFF ∧ f32Fraction f = 0

/-- A zero pattern, of either sign (41_hexfloat_codec.md R123). -/
abbrev IsZero (f : Word) : Prop := f32Exponent f = 0 ∧ f32Fraction f = 0

/-- A subnormal pattern (41_hexfloat_codec.md R123). -/
abbrev IsSubnormal (f : Word) : Prop := f32Exponent f = 0 ∧ f32Fraction f ≠ 0

/-- A normal pattern (41_hexfloat_codec.md R123). -/
abbrev IsNormal (f : Word) : Prop := f32Exponent f ≠ 0 ∧ f32Exponent f ≠ 0xFF

/-- The value of a finite float32 pattern, 41_hexfloat_codec.md R123. It says nothing about a NaN or
an infinity. -/
def f32Value (f : Word) : ℚ :=
  if f32Exponent f = 0 then signFactor (f32Sign f) * f32Fraction f * 2 ^ (-149 : ℤ)
  else signFactor (f32Sign f) * (2 ^ 23 + f32Fraction f) * 2 ^ ((f32Exponent f : ℤ) - 150)

/-- The value of an HFP word, 41_hexfloat_codec.md R121. -/
def hfpValue (h0 h1 h2 h3 : Byte) : ℚ :=
  signFactor (hfpSign h0) * 16 ^ ((hfpExponent h0 : ℤ) - 64) * (hfpMantissa h1 h2 h3 / 16 ^ 6)

/-- A normalized HFP word: its leading hex digit, `Mt[23:20]`, is nonzero (41_hexfloat_codec.md
R122). -/
abbrev IsNormalized (h1 : Byte) : Prop := highNibble h1 ≠ 0

/-- The value of a decimal triple, 42_packed_decimal_codec.md R151. -/
def decimalValue (neg : Bool) (m : Coeff) (scale : Byte) : ℚ :=
  signFactor neg * m.toNat * 10 ^ (-(scale.toNat : ℤ))

/-- Nibble `N[k]` of a packed buffer (20_memory.md R48). -/
def nibbleAt (b : List Byte) (k : Nat) : Nibble :=
  if k % 2 = 0 then highNibble (byteAt b (k / 2)) else lowNibble (byteAt b (k / 2))

end Sys2Proof.Machine
end

