-- ==== Sys2Proof/Safety.lean ====
section
/-! DEFINITION. The terms in which claims are made: which records a caller can spell, which responses
are possible, the invariant of the machine, and what a safe step is. -/

namespace Sys2Proof.Machine

/-- A request a caller can spell: its lengths fit their 32-bit fields (30_encoding.md R68,
92_eei_decisions.md D38). -/
structure RequestOk (r : Request) : Prop where
  bufLength : r.buf.length < 2 ^ Config.seqLenBits
  txtLength : r.txt.length < 2 ^ Config.seqLenBits

/-- A response the block can give: a status that is assigned (60_exceptions.md R201), nothing beside
the code on an error (R203), lengths that fit their fields (30_encoding.md R69), and text from the
table's image only (40_text_codec.md R110). -/
structure ResponseOk (rom : TextRom) (q : Response) : Prop where
  assigned   : q.status.toNat ≤ 5
  bareError  : q.status ≠ 0 → q = { status := q.status }
  obufLength : q.obuf.length < 2 ^ Config.seqLenBits
  otxtLength : q.otxt.length < 2 ^ Config.seqLenBits
  inImage    : ∀ c ∈ q.otxt, ∃ i, romRead rom i = c

/-- The invariant of the machine: the table and the parameters are admissible (10_state.md R26, R27;
00_scope.md R9), and every record in the interface is possible. -/
structure Inv (s : State) : Prop where
  rom       : RomAdmissible s.textRom
  params    : s.params.Admissible
  requests  : ∀ r ∈ s.requests, RequestOk r
  responses : ∀ q ∈ s.responses, ResponseOk s.textRom q

/-- A safe step: the machine goes on (60_exceptions.md R200). -/
def SafeStep (s : State) : Prop := ∃ t, step s = .next t

/-- The state after the oldest request of `s` has been answered with `q`, `rest` being the requests
behind it: the table, the parameters, the other requests and the earlier responses are as they
were. -/
def answered (s : State) (rest : List Request) (q : Response) : State where
  textRom   := s.textRom
  params    := s.params
  requests  := rest
  responses := s.responses ++ [q]

/-- The slice of a text command: it begins at `st`, has `n` elements and lies inside an operand of
`total` elements (20_memory.md R51). -/
def SliceIs (total : Nat) (a1p : Bool) (idx : Word) (a2p : Bool) (len : Word) (st n : Nat) : Prop :=
  (st : Int) = (if a1p then idx.toInt else 0) ∧
  (n : Int) = (if a2p then len.toInt else (total : Int) - st) ∧ st + n ≤ total

/-- The slice of a fixed-width decode of `w` bytes: it begins at `o` and lies inside an operand of
`total` bytes (20_memory.md R51). -/
def OffsetIs (total : Nat) (a1p : Bool) (idx : Word) (w o : Nat) : Prop :=
  (o : Int) = (if a1p then idx.toInt else 0) ∧ o + w ≤ total

/-- Two requests agree on every field the command reads (30_encoding.md R70): `BUF` only where it is
present, `TXT` only where it is present, `IDX` only if `A1P`, `LEN` only if `A2P`. -/
def SameReads : Instr → Request → Request → Prop
  | .txtEnc a1p a2p, r, q =>
    r.txtP = q.txtP ∧ (r.txtP = true → r.txt = q.txt) ∧ (a1p = true → r.idx = q.idx) ∧
      (a2p = true → r.len = q.len)
  | .txtDec a1p a2p, r, q =>
    r.bufP = q.bufP ∧ (r.bufP = true → r.buf = q.buf) ∧ (a1p = true → r.idx = q.idx) ∧
      (a2p = true → r.len = q.len)
  | .hfpEnc, r, q => r.arg0 = q.arg0
  | .hfpDec a1p, r, q =>
    r.bufP = q.bufP ∧ (r.bufP = true → r.buf = q.buf) ∧ (a1p = true → r.idx = q.idx)
  | .pdEnc, r, q => r.dneg = q.dneg ∧ r.dmag = q.dmag ∧ r.blen = q.blen
  | .pdDec, r, q =>
    r.bufP = q.bufP ∧ (r.bufP = true → r.buf = q.buf) ∧ r.blen = q.blen ∧ r.scale = q.scale
  | .zdDec, r, q => r.bufP = q.bufP ∧ (r.bufP = true → r.buf = q.buf) ∧ r.scale = q.scale
  | .i16Enc, r, q => r.arg0.extractLsb' 0 16 = q.arg0.extractLsb' 0 16
  | .i32Enc, r, q => r.arg0 = q.arg0
  | .i16Dec a1p, r, q =>
    r.bufP = q.bufP ∧ (r.bufP = true → r.buf = q.buf) ∧ (a1p = true → r.idx = q.idx)
  | .i32Dec a1p, r, q =>
    r.bufP = q.bufP ∧ (r.bufP = true → r.buf = q.buf) ∧ (a1p = true → r.idx = q.idx)

/-- A successful response to `r` sets only the result fields of its command, with the lengths the
command gives them (30_encoding.md R71). -/
def WritesOnly : Instr → Request → Response → Prop
  | .txtEnc _ _, _, q => q = { obuf := q.obuf }
  | .txtDec _ _, _, q => q = { otxt := q.otxt }
  | .hfpEnc, _, q => q = { obuf := q.obuf } ∧ q.obuf.length = 4
  | .hfpDec _, _, q => q = { res := q.res }
  | .pdEnc, r, q => q = { obuf := q.obuf } ∧ q.obuf.length = r.blen.toNat
  | .pdDec, _, q => q = { rneg := q.rneg, rmag := q.rmag, rscale := q.rscale }
  | .zdDec, _, q => q = { rneg := q.rneg, rmag := q.rmag, rscale := q.rscale }
  | .i16Enc, _, q => q = { obuf := q.obuf } ∧ q.obuf.length = 2
  | .i32Enc, _, q => q = { obuf := q.obuf } ∧ q.obuf.length = 4
  | .i16Dec _, _, q => q = { res := q.res }
  | .i32Dec _, _, q => q = { res := q.res }

/-- The commands of the text unit (30_encoding.md R62). -/
def isTextCommand : Instr → Bool
  | .txtEnc _ _ => true
  | .txtDec _ _ => true
  | .hfpEnc => false
  | .hfpDec _ => false
  | .pdEnc => false
  | .pdDec => false
  | .zdDec => false
  | .i16Enc => false
  | .i32Enc => false
  | .i16Dec _ => false
  | .i32Dec _ => false

/-- The status codes a command can give by 60_exceptions.md R202, without the causes R202 marks
unreachable. -/
def statusPossible : Instr → List (BitVec 3)
  | .txtEnc _ _ => [0, 1, 3]
  | .txtDec _ _ => [0, 1]
  | .hfpEnc => [0, 1, 2]
  | .hfpDec _ => [0, 1, 2]
  | .pdEnc => [0, 2]
  | .pdDec => [0, 1, 2]
  | .zdDec => [0, 1, 2]
  | .i16Enc => [0]
  | .i32Enc => [0]
  | .i16Dec _ => [0, 1]
  | .i32Dec _ => [0, 1]

end Sys2Proof.Machine
end

