-- ==== Sys2Proof/Certificates/Slice0/Obligations.lean ====
section
/-! DEFINITION. The statements for the provers. Each says what a rule of spec/ says of the commands or
of the whole machine, over every state unless a premise is named. `answered s rest q` spells out the
whole next state, so a statement that a command answers it is also its frame: the table, the
parameters, the other requests and the earlier responses are unchanged. -/

open Sys2Proof Sys2Proof.Machine

/-! ### Decoding -/

/-- 30_encoding.md R76, which the spec derives from R61 to R63: the legal command words, each with
its command, and no other. -/
def Obligations.LegalWordsAreExactlyTheTable : Prop :=
  legalTable.length = 18 ∧ ∀ w i, decode w = .ok i ↔ (w, i) ∈ legalTable

/-- 30_encoding.md R61, R62: decoding an encoded well-formed command gives it back, and every word
that decodes is the encoding of its command. -/
def Obligations.DecodeAndEncodeAgree : Prop :=
  (∀ i : Instr, i.wellFormed = true → decode (encode i) = .ok i) ∧
  (∀ (w : Word) (i : Instr), decode w = .ok i → i.wellFormed = true ∧ encode i = w)

/-- 30_encoding.md R61, R62, R63 and R65: words written out from the encoding, accepted and
rejected. -/
def Obligations.WrittenOutWordsDecode : Prop :=
  decode 0x00000301 = .ok (.txtEnc true true) ∧ decode 0x00000102 = .ok (.txtDec true false) ∧
  decode 0x00000111 = .ok (.hfpDec true) ∧ decode 0x00000020 = .ok .pdEnc ∧
  decode 0x00000132 = .ok (.i16Dec true) ∧ decode 0x00000201 = .error .presenceBits ∧
  decode 0x00000311 = .error .presenceBits ∧ decode 0x00000401 = .error .reservedBits ∧
  decode 0x00000034 = .error .unassignedOpcode

/-- 30_encoding.md R63, R65, R66 and R67, 60_exceptions.md R201: a word with a reserved bit set, an
unassigned operation or illegal presence bits is answered with IllegalCommand, whatever the operands
are. That it is answered and not refused is the model's choice (log 3). -/
def Obligations.IllegalWordsAreAnsweredIllegalCommand : Prop :=
  ∀ (s : State) (r : Request) (rest : List Request), s.requests = r :: rest →
    (2 ^ 10 ≤ r.cmd.toNat ∨
      r.cmd.toNat % 2 ^ 8 ∉
        [0x01, 0x02, 0x10, 0x11, 0x20, 0x21, 0x22, 0x30, 0x31, 0x32, 0x33] ∨
      (r.cmd.toNat % 2 ^ 8 ∈ [0x01, 0x02] ∧ r.cmd.getLsbD 8 = false ∧ r.cmd.getLsbD 9 = true) ∨
      (r.cmd.toNat % 2 ^ 8 ∈ [0x11, 0x32, 0x33] ∧ r.cmd.getLsbD 9 = true) ∨
      (r.cmd.toNat % 2 ^ 8 ∈ [0x10, 0x20, 0x21, 0x22, 0x30, 0x31] ∧
        (r.cmd.getLsbD 8 = true ∨ r.cmd.getLsbD 9 = true))) →
    step s = .next (answered s rest { status := 5 })

/-! ### The step -/

/-- 30_encoding.md R67: a step decodes the oldest request's command word and executes the command.
With no request waiting nothing changes, which is the model's choice (log 4). A word put where the
step reads its command is run by the very next step (log 9). -/
def Obligations.StepRunsTheDecodedCommand : Prop :=
  (∀ (s : State) (r : Request) (rest : List Request) (i : Instr),
    s.requests = r :: rest → decode r.cmd = .ok i → step s = exec i s) ∧
  (∀ s : State, s.requests = [] → step s = .next s) ∧
  (∀ (s : State) (nbits w : Nat) (i : Instr), decodeTableWord nbits w = some i →
    step (s.withFetchWord nbits w) = exec i (s.withFetchWord nbits w))

/-- 60_exceptions.md R200: the block goes on from every state, and a command runs wherever a request
is waiting. That an illegal word is answered and not refused, that a step without a request is idle,
and that a command without a request faults are the model's choices (logs 3, 4 and 5). -/
def Obligations.NoStepStops : Prop :=
  (∀ s : State, SafeStep s) ∧
  (∀ (i : Instr) (s : State), s.requests ≠ [] → ∃ t, exec i s = .next t) ∧
  (∀ (i : Instr) (s : State), s.requests = [] → exec i s = .fault .noRequest)

/-- 00_scope.md R15, 10_state.md R20, 20_memory.md R45 and R53: one function of the request, the
table and the parameters gives every response, whatever came before, waits behind or was answered.
-/
def Obligations.ResponseIsAFunctionOfTheRequest : Prop :=
  ∃ respond : TextRom → Params → Request → Response,
    ∀ (s : State) (r : Request) (rest : List Request), s.requests = r :: rest →
      step s = .next (answered s rest (respond s.textRom s.params r))

/-- 70_reset_and_hazards.md R237: the run of a program is the list of responses, response k to
request k, and the run of a program leaves the table and the parameters as they were. That requests
wait in a queue of the state is the model's choice (log 1). -/
def Obligations.RunAnswersEachRequestInOrder : Prop :=
  ∃ respond : TextRom → Params → Request → Response,
    ∀ (s : State) (program : List Request), s.requests = program →
      Host.Core.run Sys2Proof.core program.length s =
        .next { textRom := s.textRom, params := s.params, requests := [],
                responses := s.responses ++ program.map (respond s.textRom s.params) }

/-- 60_exceptions.md R208, which the spec derives from R200 and 10_state.md R21: a command issued
behind one that fails runs exactly as it would have run before it. -/
def Obligations.ErrorsLeaveNoTrace : Prop :=
  ∀ (s t : State) (bad r : Request) (rest : List Request) (q : Response),
    s.requests = bad :: r :: rest → step s = .next t → t.responses = s.responses ++ [q] →
    q.status ≠ 0 →
    ∃ a : Response, step t = .next (answered t rest a) ∧
      ∀ u : State, u.textRom = s.textRom → u.params = s.params → u.requests = r :: rest →
        step u = .next (answered u rest a)

/-! ### Reset and the host -/

/-- 10_state.md R28, R32 and 70_reset_and_hazards.md R230: after reset the image of the table
is `U+0000..U+00FF`, the parameters have the values of 00_scope.md R8, and nothing is pending. The
image and the values are the spec's own defaults (logs 7 and 8). -/
def Obligations.ResetHoldsTheDefaultImageAndParameters : Prop :=
  State.reset.requests = [] ∧ State.reset.responses = [] ∧
  (∀ c : Scalar, (∃ i, romRead State.reset.textRom i = c) ↔ c.toNat < 256) ∧
  State.reset.params.hfpRound = .rne ∧ State.reset.params.pdPosSign = 0xC ∧
  State.reset.params.pdNegSign = 0xD ∧ State.reset.params.pdPosAccept = [0xC] ∧
  State.reset.params.pdNegAccept = [0xD] ∧ State.reset.params.zdPosExtra = [0xF]

/-- 10_state.md R26, R27 and 00_scope.md R9: the invariant holds after reset. -/
def Obligations.ResetMeetsTheInvariant : Prop := Inv State.reset

/-- 10_state.md R25 to R27, 60_exceptions.md R201 and R203: every step keeps the invariant, and so
do the host's moves with a request a caller can spell. -/
def Obligations.EveryStepKeepsTheInvariant : Prop :=
  (∀ s t : State, Inv s → step s = .next t → Inv t) ∧
  (∀ (s : State) (r : Request), Inv s → RequestOk r → Inv (issue r s)) ∧
  (∀ s : State, Inv s → Inv (resetSignal s))

/-- 10_state.md R25 and R24: no command writes the table or a parameter, and neither does the
host. -/
def Obligations.TableAndParametersNeverChange : Prop :=
  (∀ (i : Instr) (s t : State), exec i s = .next t →
    t.textRom = s.textRom ∧ t.params = s.params) ∧
  (∀ s t : State, step s = .next t → t.textRom = s.textRom ∧ t.params = s.params) ∧
  (∀ (s : State) (r : Request),
    (issue r s).textRom = s.textRom ∧ (issue r s).params = s.params ∧
    (resetSignal s).textRom = s.textRom ∧ (resetSignal s).params = s.params)

/-- 70_reset_and_hazards.md R231 and R232: after the reset signal no earlier request is answered,
and the first command issued then is answered as it always is. That the answers already given stay
with the caller is the model's choice (log 10). -/
def Obligations.ResetLosesUnansweredRequests : Prop :=
  ∀ (s : State) (r : Request), ∃ q : Response,
    step (issue r (resetSignal s)) =
      .next { textRom := s.textRom, params := s.params, requests := [],
              responses := s.responses ++ [q] } ∧
    ∀ (u : State) (rest : List Request), u.textRom = s.textRom → u.params = s.params →
      u.requests = r :: rest → step u = .next (answered u rest q)

/-! ### Every command -/

/-- 60_exceptions.md R203: an error response is its code and nothing else; R201: codes 6 and 7 never
appear. -/
def Obligations.ErrorResponsesAreBare : Prop :=
  ∀ (s : State) (r : Request) (rest : List Request), s.requests = r :: rest →
    ∃ q : Response, step s = .next (answered s rest q) ∧ q.status.toNat ≤ 5 ∧
      (q.status ≠ 0 →
        q = { status := q.status, obuf := [], otxt := [], res := 0, rneg := false, rmag := 0,
              rscale := 0 })

/-- 30_encoding.md R70: a command reads only the request fields listed for it, and every other field
is ignored. -/
def Obligations.CommandsReadOnlyTheirFields : Prop :=
  ∀ (i : Instr) (s u : State) (r r' : Request) (rest rest' : List Request),
    s.textRom = u.textRom → s.params = u.params → s.requests = r :: rest →
    u.requests = r' :: rest' → SameReads i r r' →
    ∃ q : Response, exec i s = .next (answered s rest q) ∧ exec i u = .next (answered u rest' q)

/-- 30_encoding.md R71: on success a command sets its result fields and every other field is zero;
on an error the response is the error response. -/
def Obligations.CommandsWriteOnlyTheirFields : Prop :=
  ∀ (i : Instr) (s : State) (r : Request) (rest : List Request), s.requests = r :: rest →
    ∃ q : Response, exec i s = .next (answered s rest q) ∧
      (q.status = 0 → WritesOnly i r q) ∧ (q.status ≠ 0 → q = { status := q.status })

/-- 60_exceptions.md R202, 41_hexfloat_codec.md R126: which status codes a command can give. No
request is ever answered with Underflow. -/
def Obligations.CommandsGiveOnlyTheirStatusCodes : Prop :=
  ∀ (i : Instr) (s : State) (r : Request) (rest : List Request), s.requests = r :: rest →
    ∃ q : Response, exec i s = .next (answered s rest q) ∧ q.status ∈ statusPossible i

/-- 00_scope.md R3 and 10_state.md R30: only the text commands depend on the table, and they depend
on no parameter. -/
def Obligations.OnlyTextCommandsReadTheTable : Prop :=
  ∀ (i : Instr) (s u : State) (r : Request) (rest : List Request),
    s.requests = r :: rest → u.requests = r :: rest →
    (isTextCommand i = false → s.params = u.params) →
    (isTextCommand i = true → s.textRom = u.textRom) →
    ∃ q : Response, exec i s = .next (answered s rest q) ∧ exec i u = .next (answered u rest q)

/-! ### The text unit -/

/-- 10_state.md R29, which the spec derives from R25 and R26: `ROM_INV(c)` is the unique index of
`c`, and none outside the image. -/
def Obligations.RomInverseIsTheUniqueIndex : Prop :=
  ∀ rom : TextRom, RomAdmissible rom →
    (∀ (c : Scalar) (i : Byte), romInv rom c = some i ↔ romRead rom i = c) ∧
    (∀ c : Scalar, romInv rom c = none ↔ ∀ i, romRead rom i ≠ c)

/-- 40_text_codec.md R101 and R102, with the slice of 20_memory.md R51: TXT_ENC. -/
def Obligations.TxtEncMapsTheSelectedScalars : Prop :=
  decode 0x00000001 = .ok (.txtEnc false false) ∧ decode 0x00000101 = .ok (.txtEnc true false) ∧
  decode 0x00000301 = .ok (.txtEnc true true) ∧
  ∀ (s : State) (r : Request) (rest : List Request) (a1p a2p : Bool),
    s.requests = r :: rest →
    (r.txtP = false → exec (.txtEnc a1p a2p) s = .next (answered s rest { status := 1 })) ∧
    (r.txtP = true → (¬ ∃ st n, SliceIs r.txt.length a1p r.idx a2p r.len st n) →
      exec (.txtEnc a1p a2p) s = .next (answered s rest { status := 1 })) ∧
    (r.txtP = true → ∀ st n, SliceIs r.txt.length a1p r.idx a2p r.len st n →
      ((∃ c ∈ (r.txt.drop st).take n, ∀ i, romRead s.textRom i ≠ c) →
        exec (.txtEnc a1p a2p) s = .next (answered s rest { status := 3 })) ∧
      ((∀ c ∈ (r.txt.drop st).take n, ∃ i, romRead s.textRom i = c) →
        ∃ out : List Byte, out.length = n ∧
          out.map (romRead s.textRom) = (r.txt.drop st).take n ∧
          exec (.txtEnc a1p a2p) s = .next (answered s rest { obuf := out })))

/-- 40_text_codec.md R110, with the slice of 20_memory.md R51: TXT_DEC. -/
def Obligations.TxtDecReadsTheSelectedBytes : Prop :=
  decode 0x00000002 = .ok (.txtDec false false) ∧ decode 0x00000102 = .ok (.txtDec true false) ∧
  decode 0x00000302 = .ok (.txtDec true true) ∧
  ∀ (s : State) (r : Request) (rest : List Request) (a1p a2p : Bool),
    s.requests = r :: rest →
    (r.bufP = false → exec (.txtDec a1p a2p) s = .next (answered s rest { status := 1 })) ∧
    (r.bufP = true → (¬ ∃ st n, SliceIs r.buf.length a1p r.idx a2p r.len st n) →
      exec (.txtDec a1p a2p) s = .next (answered s rest { status := 1 })) ∧
    (r.bufP = true → ∀ st n, SliceIs r.buf.length a1p r.idx a2p r.len st n →
      ∃ out : List Scalar, out.length = n ∧
        (∀ k < n, out[k]? = (r.buf[st + k]?).map (romRead s.textRom)) ∧
        exec (.txtDec a1p a2p) s = .next (answered s rest { otxt := out }))

/-- 10_state.md R26, 40_text_codec.md R101: whatever the admissible table, a selected element that
is no Unicode scalar value (a surrogate, or above `0x10FFFF`) is unmappable. -/
def Obligations.NonScalarsAreUnmappableInEveryTable : Prop :=
  ∀ (s : State) (r : Request) (rest : List Request) (a1p a2p : Bool) (st n : Nat) (c : Scalar),
    RomAdmissible s.textRom → s.requests = r :: rest → r.txtP = true →
    SliceIs r.txt.length a1p r.idx a2p r.len st n → c ∈ (r.txt.drop st).take n →
    (0xD800 ≤ c.toNat ∧ c.toNat ≤ 0xDFFF ∨ 0x10FFFF < c.toNat) →
    exec (.txtEnc a1p a2p) s = .next (answered s rest { status := 3 })

/-- 40_text_codec.md R111, which the spec derives from R101, R110 and 10_state.md R26 and R29: the
two text round trips. -/
def Obligations.TextRoundTrips : Prop :=
  (∀ (s : State) (r : Request) (rest : List Request), RomAdmissible s.textRom →
    s.requests = r :: rest → r.cmd = 0x00000001 → r.txtP = true →
    (∀ c ∈ r.txt, ∃ i, romRead s.textRom i = c) →
    ∃ b : List Byte, step s = .next (answered s rest { obuf := b }) ∧
      ∀ (u : State) (r' : Request) (rest' : List Request), u.textRom = s.textRom →
        u.requests = r' :: rest' → r'.cmd = 0x00000002 → r'.bufP = true → r'.buf = b →
        step u = .next (answered u rest' { otxt := r.txt })) ∧
  (∀ (s : State) (r : Request) (rest : List Request), RomAdmissible s.textRom →
    s.requests = r :: rest → r.cmd = 0x00000002 → r.bufP = true →
    ∃ t : List Scalar, step s = .next (answered s rest { otxt := t }) ∧
      ∀ (u : State) (r' : Request) (rest' : List Request), u.textRom = s.textRom →
        u.requests = r' :: rest' → r'.cmd = 0x00000001 → r'.txtP = true → r'.txt = t →
        step u = .next (answered u rest' { obuf := r.buf }))

/-- 40_text_codec.md R112, which the spec derives from R101 and R110: slicing commutes with the
codec. -/
def Obligations.SlicingCommutesWithTheTextCodec : Prop :=
  (∀ (s u : State) (r r' : Request) (rest rest' : List Request) (b : List Byte) (st n : Nat),
    u.textRom = s.textRom → s.requests = r :: rest → u.requests = r' :: rest' →
    r.cmd = 0x00000001 → r'.cmd = 0x00000301 → r'.txtP = r.txtP → r'.txt = r.txt →
    step s = .next (answered s rest { obuf := b }) →
    r'.idx.toInt = st → r'.len.toInt = n → st + n ≤ r.txt.length →
    step u = .next (answered u rest' { obuf := (b.drop st).take n })) ∧
  (∀ (s u : State) (r r' : Request) (rest rest' : List Request) (t : List Scalar) (st n : Nat),
    u.textRom = s.textRom → s.requests = r :: rest → u.requests = r' :: rest' →
    r.cmd = 0x00000002 → r'.cmd = 0x00000302 → r'.bufP = r.bufP → r'.buf = r.buf →
    step s = .next (answered s rest { otxt := t }) →
    r'.idx.toInt = st → r'.len.toInt = n → st + n ≤ r.buf.length →
    step u = .next (answered u rest' { otxt := (t.drop st).take n }))

/-! ### The hex-float converter -/

/-- 00_scope.md R14: `RoundInt`, over the numerator and the positive denominator of its rational. -/
def Obligations.RoundIntRoundsToTheNearest : Prop :=
  ∀ (mode : Rounding) (num den : Nat), 0 < den →
    let q : ℚ := (num : ℚ) / den
    (q - ⌊q⌋ < 1 / 2 → (roundInt mode num den : ℤ) = ⌊q⌋) ∧
    (1 / 2 < q - ⌊q⌋ → (roundInt mode num den : ℤ) = ⌊q⌋ + 1) ∧
    (q - ⌊q⌋ = 1 / 2 →
      (mode = .rne → Even (roundInt mode num den : ℤ) ∧
        ((roundInt mode num den : ℤ) = ⌊q⌋ ∨ (roundInt mode num den : ℤ) = ⌊q⌋ + 1)) ∧
      (mode = .rhu → (roundInt mode num den : ℤ) = ⌊q⌋ + 1))

/-- 41_hexfloat_codec.md R124: `RoundF32` of a positive rational between `2^t` and `2^(t+1)`. -/
def Obligations.RoundF32RoundsOnce : Prop :=
  ∀ (s : Bool) (num den : Nat) (t : ℤ), 0 < num → 0 < den →
    (2 : ℚ) ^ t ≤ (num : ℚ) / den → (num : ℚ) / den < 2 ^ (t + 1) →
    let sig : ℤ := roundRat .rne ((num : ℚ) / den * 2 ^ (23 - t))
    let fld : ℤ := roundRat .rne ((num : ℚ) / den * 2 ^ (149 : ℤ))
    (-126 ≤ t → sig < 2 ^ 24 → 127 < t → roundF32 s num den = .error .overflow) ∧
    (-126 ≤ t → sig = 2 ^ 24 → 127 < t + 1 → roundF32 s num den = .error .overflow) ∧
    (-126 ≤ t → sig < 2 ^ 24 → t ≤ 127 → ∃ f, roundF32 s num den = .ok f ∧
      f32Sign f = s ∧ (f32Exponent f : ℤ) = t + 127 ∧ (f32Fraction f : ℤ) = sig - 2 ^ 23) ∧
    (-126 ≤ t → sig = 2 ^ 24 → t + 1 ≤ 127 → ∃ f, roundF32 s num den = .ok f ∧
      f32Sign f = s ∧ (f32Exponent f : ℤ) = t + 1 + 127 ∧ f32Fraction f = 0) ∧
    (-126 ≤ t → 2 ^ 23 ≤ sig ∧ sig ≤ 2 ^ 24) ∧
    (t < -126 → 0 ≤ fld ∧ fld ≤ 2 ^ 23 ∧
      roundF32 s num den = .ok (BitVec.ofBool s ++ BitVec.ofInt 31 fld))

/-- 41_hexfloat_codec.md R125: HFP_ENC. The exponent `e` is the one with `16^(e-1) ≤ |v| < 16^e`. -/
def Obligations.HfpEncRoundsToSixHexDigits : Prop :=
  decode 0x00000010 = .ok .hfpEnc ∧
  ∀ (s : State) (r : Request) (rest : List Request), s.requests = r :: rest →
    (IsNaN r.arg0 → exec .hfpEnc s = .next (answered s rest { status := 1 })) ∧
    (IsInfinity r.arg0 → exec .hfpEnc s = .next (answered s rest { status := 2 })) ∧
    (IsZero r.arg0 → exec .hfpEnc s =
      .next (answered s rest { obuf := [0x00, 0x00, 0x00, 0x00] })) ∧
    (IsNormal r.arg0 ∨ IsSubnormal r.arg0 → ∀ e : ℤ,
      (16 : ℚ) ^ (e - 1) ≤ |f32Value r.arg0| → |f32Value r.arg0| < 16 ^ e →
      ∃ h0 h1 h2 h3 : Byte,
        exec .hfpEnc s = .next (answered s rest { obuf := [h0, h1, h2, h3] }) ∧
        hfpSign h0 = f32Sign r.arg0 ∧ (hfpExponent h0 : ℤ) = e + 64 ∧
        (hfpMantissa h1 h2 h3 : ℤ) =
          roundRat s.params.hfpRound (|f32Value r.arg0| / 16 ^ e * 16 ^ 6))

/-- 41_hexfloat_codec.md R126 (a) to (c), which the spec derives from R123 and R125, and R122: the
range of HFP_ENC's outputs, and that every one of them is normalized. -/
def Obligations.HfpEncOutputsAreNormalized : Prop :=
  (∀ (s : State) (r : Request) (rest : List Request), s.requests = r :: rest →
    IsNormal r.arg0 ∨ IsSubnormal r.arg0 →
    ∃ h0 h1 h2 h3 : Byte,
      exec .hfpEnc s = .next (answered s rest { obuf := [h0, h1, h2, h3] }) ∧
      27 ≤ hfpExponent h0 ∧ hfpExponent h0 ≤ 96 ∧ IsNormalized h1 ∧
      2 ^ 20 ≤ hfpMantissa h1 h2 h3 ∧
      ((∀ n : ℤ, |f32Value r.arg0| / 16 ^ ((hfpExponent h0 : ℤ) - 64) * 16 ^ 6 ≠ n) →
        hfpMantissa h1 h2 h3 ≤ 2 ^ 23)) ∧
  (∀ (s : State) (r : Request) (rest : List Request), s.requests = r :: rest →
    (r.arg0 = 0x00000001 → exec .hfpEnc s =
      .next (answered s rest { obuf := [0x1B, 0x80, 0x00, 0x00] })) ∧
    (r.arg0 = 0x7F7FFFFF → exec .hfpEnc s =
      .next (answered s rest { obuf := [0x60, 0xFF, 0xFF, 0xFF] })))

/-- 41_hexfloat_codec.md R127, with the offset of 20_memory.md R51: HFP_DEC. -/
def Obligations.HfpDecReconstructsTheValue : Prop :=
  decode 0x00000011 = .ok (.hfpDec false) ∧ decode 0x00000111 = .ok (.hfpDec true) ∧
  ∀ (s : State) (r : Request) (rest : List Request) (a1p : Bool), s.requests = r :: rest →
    (r.bufP = false → exec (.hfpDec a1p) s = .next (answered s rest { status := 1 })) ∧
    (r.bufP = true → (¬ ∃ o, OffsetIs r.buf.length a1p r.idx 4 o) →
      exec (.hfpDec a1p) s = .next (answered s rest { status := 1 })) ∧
    (r.bufP = true → ∀ (o : Nat) (h0 h1 h2 h3 : Byte), OffsetIs r.buf.length a1p r.idx 4 o →
      (r.buf.drop o).take 4 = [h0, h1, h2, h3] →
      (hfpMantissa h1 h2 h3 = 0 → exec (.hfpDec a1p) s =
        .next (answered s rest { res := if hfpSign h0 then 0x80000000 else 0x00000000 })) ∧
      ((2 : ℚ) ^ 128 ≤ |hfpValue h0 h1 h2 h3| →
        exec (.hfpDec a1p) s = .next (answered s rest { status := 2 })) ∧
      ((2 : ℚ) ^ (-126 : ℤ) ≤ |hfpValue h0 h1 h2 h3| → |hfpValue h0 h1 h2 h3| < 2 ^ 128 →
        ∃ f : Word, exec (.hfpDec a1p) s = .next (answered s rest { res := f }) ∧
          IsNormal f ∧ f32Value f = hfpValue h0 h1 h2 h3) ∧
      (hfpMantissa h1 h2 h3 ≠ 0 → |hfpValue h0 h1 h2 h3| < (2 : ℚ) ^ (-126 : ℤ) →
        exec (.hfpDec a1p) s = .next (answered s rest
          { res := BitVec.ofBool (hfpSign h0) ++
              BitVec.ofInt 31 (roundRat .rne (|hfpValue h0 h1 h2 h3| * 2 ^ (149 : ℤ))) })))

/-- 41_hexfloat_codec.md R128 (b) and (c), which the spec derives from R121, R124 and R127: for a
normalized word, exactly where HFP_DEC overflows and exactly where its result is subnormal or zero.
-/
def Obligations.HfpDecRangeOfNormalizedWords : Prop :=
  ∀ (s : State) (r : Request) (rest : List Request) (a1p : Bool) (o : Nat) (h0 h1 h2 h3 : Byte),
    s.requests = r :: rest → r.bufP = true → OffsetIs r.buf.length a1p r.idx 4 o →
    (r.buf.drop o).take 4 = [h0, h1, h2, h3] → IsNormalized h1 →
    ∃ q : Response, exec (.hfpDec a1p) s = .next (answered s rest q) ∧
      (q.status = 2 ↔ 97 ≤ hfpExponent h0) ∧ (q.status = 0 ↔ hfpExponent h0 ≤ 96) ∧
      (q.status = 0 → (f32Exponent q.res = 0 ↔
        hfpExponent h0 ≤ 32 ∨ (hfpExponent h0 = 33 ∧ hfpMantissa h1 h2 h3 < 0x400000)))

/-- 41_hexfloat_codec.md R129, which the spec derives from R125, R127 and R128: the precision
contract of the hex-float round trip. -/
def Obligations.HfpRoundTripPrecision : Prop :=
  ∀ (s : State) (r : Request) (rest : List Request), s.requests = r :: rest →
    r.cmd = 0x00000010 → IsNormal r.arg0 ∨ IsZero r.arg0 →
    ∃ b : List Byte, step s = .next (answered s rest { obuf := b }) ∧
      ∀ (u : State) (r' : Request) (rest' : List Request), u.requests = r' :: rest' →
        r'.cmd = 0x00000011 → r'.bufP = true → r'.buf = b →
        ∃ y : Word, step u = .next (answered u rest' { res := y }) ∧
          (IsNormal r.arg0 → (IsNormal y ∨ IsSubnormal y) ∧
            |f32Value y - f32Value r.arg0| ≤ 2 ^ (-21 : ℤ) * |f32Value r.arg0| ∧
            (|f32Value r.arg0| ≤ 100 → |f32Value y - f32Value r.arg0| < 1 / 10 ^ 4)) ∧
          (IsZero r.arg0 → y = 0x00000000)

/-- 41_hexfloat_codec.md R130, which the spec derives from R125, R127 and R128: the exact hex-float
round trips, and that `-0.0` comes back as `+0.0`. -/
def Obligations.HfpExactRoundTrips : Prop :=
  (∀ (s : State) (r : Request) (rest : List Request) (e n : ℤ), s.requests = r :: rest →
    r.cmd = 0x00000010 → IsNormal r.arg0 → (16 : ℚ) ^ (e - 1) ≤ |f32Value r.arg0| →
    |f32Value r.arg0| < 16 ^ e → |f32Value r.arg0| / 16 ^ e * 16 ^ 6 = n →
    ∃ b : List Byte, step s = .next (answered s rest { obuf := b }) ∧
      ∀ (u : State) (r' : Request) (rest' : List Request), u.requests = r' :: rest' →
        r'.cmd = 0x00000011 → r'.bufP = true → r'.buf = b →
        step u = .next (answered u rest' { res := r.arg0 })) ∧
  (∀ (s : State) (r : Request) (rest : List Request) (h0 h1 h2 h3 : Byte),
    s.requests = r :: rest → r.cmd = 0x00000011 → r.bufP = true → r.buf = [h0, h1, h2, h3] →
    IsNormalized h1 → 33 < hfpExponent h0 → hfpExponent h0 < 97 →
    ∃ f : Word, step s = .next (answered s rest { res := f }) ∧
      ∀ (u : State) (r' : Request) (rest' : List Request), u.requests = r' :: rest' →
        r'.cmd = 0x00000010 → r'.arg0 = f →
        step u = .next (answered u rest' { obuf := [h0, h1, h2, h3] })) ∧
  (∀ (s : State) (r : Request) (rest : List Request), s.requests = r :: rest →
    r.cmd = 0x00000010 → r.arg0 = 0x80000000 →
    ∃ b : List Byte, step s = .next (answered s rest { obuf := b }) ∧
      ∀ (u : State) (r' : Request) (rest' : List Request), u.requests = r' :: rest' →
        r'.cmd = 0x00000011 → r'.bufP = true → r'.buf = b →
        step u = .next (answered u rest' { res := 0x00000000 }))

/-! ### The BCD unit -/

/-- 42_packed_decimal_codec.md R154 and R152, with the sign of R153: PD_ENC. -/
def Obligations.PdEncWritesDigitsThenSign : Prop :=
  decode 0x00000020 = .ok .pdEnc ∧
  ∀ (s : State) (r : Request) (rest : List Request), s.requests = r :: rest →
    let l := r.blen.toNat
    let m := r.dmag.toNat
    let nd := max 1 (Nat.digits 10 m).length
    (nd + 1 > 2 * l → exec .pdEnc s = .next (answered s rest { status := 2 })) ∧
    (nd + 1 ≤ 2 * l → ∃ out : List Byte,
      exec .pdEnc s = .next (answered s rest { obuf := out }) ∧ out.length = l ∧
      (∀ k < 2 * l - 1, (nibbleAt out k).toNat = m / 10 ^ (2 * l - 2 - k) % 10) ∧
      nibbleAt out (2 * l - 1) =
        if r.dneg = true ∧ m ≠ 0 then s.params.pdNegSign else s.params.pdPosSign)

/-- 42_packed_decimal_codec.md R155: PD_DEC. -/
def Obligations.PdDecReadsDigitsThenSign : Prop :=
  decode 0x00000021 = .ok .pdDec ∧
  ∀ (s : State) (r : Request) (rest : List Request), s.requests = r :: rest →
    let l := r.blen.toNat
    let sg := nibbleAt r.buf (2 * l - 1)
    let m := ∑ k ∈ Finset.range (2 * l - 1), (nibbleAt r.buf k).toNat * 10 ^ (2 * l - 2 - k)
    (r.bufP = false ∨ l = 0 ∨ r.buf.length < l ∨
        (sg ∉ s.params.pdPosAccept ∧ sg ∉ s.params.pdNegAccept) ∨
        (∃ k < 2 * l - 1, 9 < (nibbleAt r.buf k).toNat) →
      exec .pdDec s = .next (answered s rest { status := 1 })) ∧
    (r.bufP = true → 0 < l → l ≤ r.buf.length →
      (sg ∈ s.params.pdPosAccept ∨ sg ∈ s.params.pdNegAccept) →
      (∀ k < 2 * l - 1, (nibbleAt r.buf k).toNat ≤ 9) →
      (2 ^ 96 ≤ m → exec .pdDec s = .next (answered s rest { status := 2 })) ∧
      (m < 2 ^ 96 → exec .pdDec s = .next (answered s rest
        { rneg := decide (sg ∉ s.params.pdPosAccept), rmag := BitVec.ofNat 96 m,
          rscale := r.scale })))

/-- 42_packed_decimal_codec.md R156: ZD_DEC. -/
def Obligations.ZdDecReadsDigitsAndFinalZone : Prop :=
  decode 0x00000022 = .ok .zdDec ∧
  ∀ (s : State) (r : Request) (rest : List Request), s.requests = r :: rest →
    let n := r.buf.length
    let z := highNibble (byteAt r.buf (n - 1))
    let m := ∑ k ∈ Finset.range n, (lowNibble (byteAt r.buf k)).toNat * 10 ^ (n - 1 - k)
    (r.bufP = false ∨ n = 0 ∨
        (z ∉ s.params.pdNegAccept ∧ z ∉ s.params.pdPosAccept ∧ z ∉ s.params.zdPosExtra) ∨
        (∃ k < n, 9 < (lowNibble (byteAt r.buf k)).toNat) →
      exec .zdDec s = .next (answered s rest { status := 1 })) ∧
    (r.bufP = true → 0 < n →
      (z ∈ s.params.pdNegAccept ∨ z ∈ s.params.pdPosAccept ∨ z ∈ s.params.zdPosExtra) →
      (∀ k < n, (lowNibble (byteAt r.buf k)).toNat ≤ 9) →
      (2 ^ 96 ≤ m → exec .zdDec s = .next (answered s rest { status := 2 })) ∧
      (m < 2 ^ 96 → exec .zdDec s = .next (answered s rest
        { rneg := decide (z ∈ s.params.pdNegAccept), rmag := BitVec.ofNat 96 m,
          rscale := r.scale })))

/-- 42_packed_decimal_codec.md R157, which the spec derives from R154, R155 and 00_scope.md R9: the
packed round trip, and that the decoded value is the encoded one. -/
def Obligations.PackedRoundTrip : Prop :=
  ∀ (s : State) (r : Request) (rest : List Request), s.params.Admissible →
    s.requests = r :: rest → r.cmd = 0x00000020 →
    max 1 (Nat.digits 10 r.dmag.toNat).length + 1 ≤ 2 * r.blen.toNat →
    ∃ b : List Byte, step s = .next (answered s rest { obuf := b }) ∧
      ∀ (u : State) (r' : Request) (rest' : List Request), u.params = s.params →
        u.requests = r' :: rest' → r'.cmd = 0x00000021 → r'.bufP = true → r'.buf = b →
        r'.blen = r.blen →
        ∃ neg : Bool, step u = .next (answered u rest'
            { rneg := neg, rmag := r.dmag, rscale := r'.scale }) ∧
          (r.dmag ≠ 0 → neg = r.dneg) ∧ (r.dmag = 0 → neg = false) ∧
          decimalValue neg r.dmag r'.scale = decimalValue r.dneg r.dmag r'.scale

/-- 42_packed_decimal_codec.md R158, which the spec derives from R155 and R156: the packed and the
zoned field of the same digits and sign decode to the same triple. -/
def Obligations.ZonedAndPackedAgree : Prop :=
  ∀ (s u : State) (p z : Request) (restP restZ : List Request) (d : List Nibble) (pad : Nat)
    (sg : Nibble),
    s.params.Admissible → u.params = s.params → s.requests = p :: restP →
    u.requests = z :: restZ → p.cmd = 0x00000021 → z.cmd = 0x00000022 → p.bufP = true →
    z.bufP = true → d ≠ [] → (∀ x ∈ d, x.toNat ≤ 9) →
    (sg ∈ s.params.pdPosAccept ∨ sg ∈ s.params.pdNegAccept) →
    nibblesOf p.buf = List.replicate pad 0 ++ d ++ [sg] → p.blen.toNat = p.buf.length →
    z.buf.map lowNibble = d → highNibble (z.buf.getLastD 0) = sg → p.scale = z.scale →
    ∃ q : Response, step s = .next (answered s restP q) ∧ step u = .next (answered u restZ q) ∧
      (valueOfDigits d < 2 ^ 96 → q.status = 0 ∧ q.rmag.toNat = valueOfDigits d)

/-! ### The integer unit -/

/-- 43_integer_codec.md R181: I16_ENC. The two bytes are `ARG0[15:0]`, most significant first. -/
def Obligations.I16EncIsBigEndian : Prop :=
  decode 0x00000030 = .ok .i16Enc ∧
  ∀ (s : State) (r : Request) (rest : List Request), s.requests = r :: rest →
    ∃ b0 b1 : Byte, exec .i16Enc s = .next (answered s rest { obuf := [b0, b1] }) ∧
      b0.toNat * 2 ^ 8 + b1.toNat = r.arg0.toNat % 2 ^ 16

/-- 43_integer_codec.md R182: I32_ENC. The four bytes are `ARG0`, most significant first. -/
def Obligations.I32EncIsBigEndian : Prop :=
  decode 0x00000031 = .ok .i32Enc ∧
  ∀ (s : State) (r : Request) (rest : List Request), s.requests = r :: rest →
    ∃ b0 b1 b2 b3 : Byte,
      exec .i32Enc s = .next (answered s rest { obuf := [b0, b1, b2, b3] }) ∧
      b0.toNat * 2 ^ 24 + b1.toNat * 2 ^ 16 + b2.toNat * 2 ^ 8 + b3.toNat = r.arg0.toNat

/-- 43_integer_codec.md R183, with the offset of 20_memory.md R51: I16_DEC. The result is the
two's-complement value of the two bytes. -/
def Obligations.I16DecSignExtends : Prop :=
  decode 0x00000032 = .ok (.i16Dec false) ∧ decode 0x00000132 = .ok (.i16Dec true) ∧
  ∀ (s : State) (r : Request) (rest : List Request) (a1p : Bool), s.requests = r :: rest →
    (r.bufP = false → exec (.i16Dec a1p) s = .next (answered s rest { status := 1 })) ∧
    (r.bufP = true → (¬ ∃ o, OffsetIs r.buf.length a1p r.idx 2 o) →
      exec (.i16Dec a1p) s = .next (answered s rest { status := 1 })) ∧
    (r.bufP = true → ∀ (o : Nat) (b0 b1 : Byte), OffsetIs r.buf.length a1p r.idx 2 o →
      (r.buf.drop o).take 2 = [b0, b1] →
      ∃ q : Word, exec (.i16Dec a1p) s = .next (answered s rest { res := q }) ∧
        q.toInt = if b0.toNat < 2 ^ 7 then (b0.toNat * 2 ^ 8 + b1.toNat : Int)
          else (b0.toNat * 2 ^ 8 + b1.toNat : Int) - 2 ^ 16)

/-- 43_integer_codec.md R184, with the offset of 20_memory.md R51: I32_DEC. -/
def Obligations.I32DecIsBigEndian : Prop :=
  decode 0x00000033 = .ok (.i32Dec false) ∧ decode 0x00000133 = .ok (.i32Dec true) ∧
  ∀ (s : State) (r : Request) (rest : List Request) (a1p : Bool), s.requests = r :: rest →
    (r.bufP = false → exec (.i32Dec a1p) s = .next (answered s rest { status := 1 })) ∧
    (r.bufP = true → (¬ ∃ o, OffsetIs r.buf.length a1p r.idx 4 o) →
      exec (.i32Dec a1p) s = .next (answered s rest { status := 1 })) ∧
    (r.bufP = true → ∀ (o : Nat) (b0 b1 b2 b3 : Byte), OffsetIs r.buf.length a1p r.idx 4 o →
      (r.buf.drop o).take 4 = [b0, b1, b2, b3] →
      ∃ q : Word, exec (.i32Dec a1p) s = .next (answered s rest { res := q }) ∧
        q.toNat = b0.toNat * 2 ^ 24 + b1.toNat * 2 ^ 16 + b2.toNat * 2 ^ 8 + b3.toNat)

/-- 43_integer_codec.md R185, which the spec derives from R181 to R184: the integer round trips, and
how a caller reads the result. -/
def Obligations.IntegerRoundTrips : Prop :=
  ∀ (s u : State) (r r' : Request) (rest rest' : List Request), s.requests = r :: rest →
    u.requests = r' :: rest' → r'.bufP = true →
    (r.cmd = 0x00000030 → ∃ b : List Byte, step s = .next (answered s rest { obuf := b }) ∧
      (r'.cmd = 0x00000032 → r'.buf = b →
        ∃ q : Word, step u = .next (answered u rest' { res := q }) ∧
          q.toInt = (r.arg0.extractLsb' 0 16).toInt ∧
          (q.extractLsb' 0 16).toInt = q.toInt)) ∧
    (r.cmd = 0x00000031 → ∃ b : List Byte, step s = .next (answered s rest { obuf := b }) ∧
      (r'.cmd = 0x00000033 → r'.buf = b →
        step u = .next (answered u rest' { res := r.arg0 })))

/-! ### The assembler and the source's vectors -/

/-- 30_encoding.md R73: an assembler line that is accepted gives a request whose word decodes to the
line's command, each bracketed operand setting its presence bit, and so does the text of a line. How a
text is taken apart into a line is the model's choice where R73 is silent (log 14). -/
def Obligations.AssembledLinesDecodeToTheirCommand : Prop :=
  (∀ (line : AsmLine) (r : Request), assemble line = some r →
    decode r.cmd = .ok (lineCommand line)) ∧
  (∀ (text : List Char) (r : Request), assembleText text = some r →
    ∃ line : AsmLine, readLine text = some line ∧ assemble line = some r ∧
      decode r.cmd = .ok (lineCommand line))

/-- 30_encoding.md R73 and R74, on lines of 95_test_vectors.md (S4, S9, V-TXT-8, V-TXT-17, V-INT-16,
V-PD-19): the request each line stands for, and a literal that R73 rejects. The lexical form and the
fields a line does not name are the model's choice (logs 14 and 20). -/
def Obligations.AssemblerReadsTheSpecsLines : Prop :=
  assembleText "HFP_ENC 64.125488".toList = some { cmd := 0x00000010, arg0 := 0x42804040 } ∧
  assembleText "PD_ENCS 12345.6789, 4, 5".toList =
    some { cmd := 0x00000020, dmag := 123456789, blen := 5 } ∧
  assembleText "TXT_ENC \"Nope\", -1".toList =
    some { cmd := 0x00000101, txtP := true, txt := [0x4E, 0x6F, 0x70, 0x65],
           idx := 0xFFFFFFFF } ∧
  assembleText "TXT_DEC null, 0, 0".toList = some { cmd := 0x00000302 } ∧
  assembleText "I32_DEC [0x00, 0x10, 0xFF, 0x02, 0x0D, 0x99], 1".toList =
    some { cmd := 0x00000133, bufP := true, buf := [0x00, 0x10, 0xFF, 0x02, 0x0D, 0x99],
           idx := 1 } ∧
  assembleText "PD_DEC [0x00, 0x04, 0x2D], 3, 3".toList =
    some { cmd := 0x00000021, bufP := true, buf := [0x00, 0x04, 0x2D], blen := 3, scale := 3 } ∧
  assembleText "PD_ENC 79228162514264337593543950336, 15".toList = none

/-- 30_encoding.md R74: PD_ENCS scales its literal, and is rejected where the scaled literal is no
integer or has a magnitude of `2^96` or more. That the fields PD_ENC does not name are zero or empty
is the model's choice (log 20). -/
def Obligations.PdEncsScalesItsLiteral : Prop :=
  ∀ (d : DecimalLit) (scale length : Nat), scale ≤ 255 → length ≤ 255 →
    let v : ℚ := signFactor d.neg * d.coeff / 10 ^ d.places * 10 ^ scale
    (∀ n : ℤ, v = n → n.natAbs < 2 ^ 96 →
      assemble (.pdEncs d scale length) = assemble (.pdEnc n length) ∧
      assemble (.pdEncs d scale length) = some
        { cmd := 0x00000020, dneg := decide (n < 0), dmag := BitVec.ofNat 96 n.natAbs,
          blen := BitVec.ofNat 8 length }) ∧
    (((∀ n : ℤ, v ≠ n) ∨ 2 ^ 96 ≤ |v|) → assemble (.pdEncs d scale length) = none)

/-- 95_test_vectors.md S1 to S8 (S3 as 90_conflicts.md C1 corrects it): the source's literal vectors
hold for every admissible table and both roundings. -/
def Obligations.SourceVectorsHold : Prop :=
  ∀ (s : State) (r : Request) (rest : List Request), RomAdmissible s.textRom →
    s.requests = r :: rest →
    (r.txtP = true → r.txt = [0x4E, 0x6F, 0x70, 0x65] → exec (.txtEnc false false) s =
      .next (answered s rest { obuf := [0xD5, 0x96, 0x97, 0x85] })) ∧
    (r.arg0 = 0x00000764 → exec .i16Enc s = .next (answered s rest { obuf := [0x07, 0x64] })) ∧
    (r.arg0 = 0x10FF020D → exec .i32Enc s =
      .next (answered s rest { obuf := [0x10, 0xFF, 0x02, 0x0D] })) ∧
    (r.arg0 = 0x42804040 → exec .hfpEnc s =
      .next (answered s rest { obuf := [0x42, 0x40, 0x20, 0x20] })) ∧
    (r.arg0 = 0xFFFFABCD → exec .i16Enc s = .next (answered s rest { obuf := [0xAB, 0xCD] })) ∧
    (r.bufP = true → r.buf = [0xAB, 0xCD] → exec (.i16Dec false) s =
      .next (answered s rest { res := 0xFFFFABCD })) ∧
    (r.bufP = true → r.buf = [0xC0, 0x1F, 0xF4, 0x62] → exec (.hfpDec false) s =
      .next (answered s rest { res := 0xBDFFA310 })) ∧
    (r.bufP = true → r.buf = [0xC8, 0x85, 0x93, 0x93, 0x96, 0x6B] →
      exec (.txtDec false false) s =
        .next (answered s rest { otxt := [0x48, 0x65, 0x6C, 0x6C, 0x6F, 0x2C] }))
end

