-- ==== Sys2Proof/Laws/Decode.lean ====
section
/-! SUPPORT. The four fields make up the command word, and what each operation decodes to. -/

namespace Sys2Proof

theorem cmd_toNat (w : Word) :
    w.toNat = (cmdRsv w).toNat * 2 ^ 10 + (if cmdA2P w then 2 ^ 9 else 0) +
      (if cmdA1P w then 2 ^ 8 else 0) + (cmdOp w).toNat := by
  have hlt : w.toNat < 2 ^ 32 := w.isLt
  simp only [cmdRsv, cmdOp, cmdA1P, cmdA2P, BitVec.extractLsb'_toNat, BitVec.getLsbD,
    Nat.testBit_eq_decide_div_mod_eq, Nat.shiftRight_eq_div_pow, decide_eq_true_eq]
  split <;> split <;> omega

/-- Words with the same four fields are the same word (30_encoding.md R61). -/
theorem cmd_ext {v w : Word} (hr : cmdRsv v = cmdRsv w) (ho : cmdOp v = cmdOp w)
    (h1 : cmdA1P v = cmdA1P w) (h2 : cmdA2P v = cmdA2P w) : v = w := by
  apply BitVec.eq_of_toNat_eq
  rw [cmd_toNat v, cmd_toNat w, hr, ho, h1, h2]

/-- What an operation and its presence bits decode to is well-formed and has them. -/
theorem decodeOp_ok {op : Byte} {a1p a2p : Bool} {i : Instr} (h : decodeOp op a1p a2p = .ok i) :
    i.wellFormed = true ∧ i.opcode = op ∧ i.a1p = a1p ∧ i.a2p = a2p := by
  have key : i.opcode.toNat = op.toNat ∧ i.wellFormed = true ∧ i.a1p = a1p ∧ i.a2p = a2p := by
    unfold decodeOp takesTextArgs takesOffset takesNothing at h
    split at h <;> (try split at h) <;>
      simp_all [Instr.opcode, Instr.wellFormed, Instr.a1p, Instr.a2p] <;> subst h <;> simp_all
  exact ⟨key.2.1, BitVec.eq_of_toNat_eq key.1, key.2.2⟩

end Sys2Proof
end

