-- ==== Sys2Proof/Laws/State.lean ====
section
/-! SUPPORT. One lemma for each field of the state under each update of it. -/

namespace Sys2Proof.Machine

section answered
variable (s : State) (rest : List Request) (q : Response)

@[simp] theorem answered_textRom : (answered s rest q).textRom = s.textRom := rfl
@[simp] theorem answered_params : (answered s rest q).params = s.params := rfl
@[simp] theorem answered_requests : (answered s rest q).requests = rest := rfl
@[simp] theorem answered_responses : (answered s rest q).responses = s.responses ++ [q] := rfl
end answered

section host
variable (s : State) (r : Request) (p : List Request) (w : Word)

@[simp] theorem issue_textRom : (issue r s).textRom = s.textRom := rfl
@[simp] theorem issue_params : (issue r s).params = s.params := rfl
@[simp] theorem issue_requests : (issue r s).requests = s.requests ++ [r] := rfl
@[simp] theorem issue_responses : (issue r s).responses = s.responses := rfl

@[simp] theorem issueProgram_textRom : (issueProgram p s).textRom = s.textRom := rfl
@[simp] theorem issueProgram_params : (issueProgram p s).params = s.params := rfl
@[simp] theorem issueProgram_requests : (issueProgram p s).requests = s.requests ++ p := rfl
@[simp] theorem issueProgram_responses : (issueProgram p s).responses = s.responses := rfl

@[simp] theorem resetSignal_textRom : (resetSignal s).textRom = s.textRom := rfl
@[simp] theorem resetSignal_params : (resetSignal s).params = s.params := rfl
@[simp] theorem resetSignal_requests : (resetSignal s).requests = [] := rfl
@[simp] theorem resetSignal_responses : (resetSignal s).responses = s.responses := rfl

@[simp] theorem withCommand_textRom : (withCommand w s).textRom = s.textRom := by
  unfold withCommand; split <;> rfl
@[simp] theorem withCommand_params : (withCommand w s).params = s.params := by
  unfold withCommand; split <;> rfl
@[simp] theorem withCommand_responses : (withCommand w s).responses = s.responses := by
  unfold withCommand; split <;> rfl

/-- What stands first after `withCommand` carries the word. -/
theorem withCommand_head : ∃ r rest, (withCommand w s).requests = r :: rest ∧ r.cmd = w := by
  unfold withCommand
  split
  · exact ⟨_, _, rfl, rfl⟩
  · exact ⟨_, _, rfl, rfl⟩
end host

@[simp] theorem reset_textRom : State.reset.textRom = defaultTextRom := rfl
@[simp] theorem reset_params : State.reset.params = defaultParams := rfl
@[simp] theorem reset_requests : State.reset.requests = [] := rfl
@[simp] theorem reset_responses : State.reset.responses = [] := rfl

end Sys2Proof.Machine
end

