-- ==== Sys2Proof/Laws/Operands.lean ====
section
/-! SUPPORT. What the operand forms compute. -/

namespace Sys2Proof.Machine

/-- `SliceRange` answers the slice, when there is one. -/
theorem sliceRange_of_sliceIs {total : Nat} {a1p a2p : Bool} {idx len : Word} {st n : Nat}
    (h : SliceIs total a1p idx a2p len st n) :
    sliceRange total a1p idx a2p len = .ok (st, n) := by
  obtain ⟨hs, hn, hle⟩ := h
  have hs' : startIndex a1p idx = (st : Int) := by rw [hs]; rfl
  have hn' : sliceLength total (st : Int) a2p len = (n : Int) := by rw [hn]; rfl
  unfold sliceRange
  simp only [hs', hn']
  rw [if_neg (by omega), if_neg (by omega)]
  simp

/-- `SliceRange` raises InvalidArgument, when there is no slice. -/
theorem sliceRange_of_not_sliceIs {total : Nat} {a1p a2p : Bool} {idx len : Word}
    (h : ¬ ∃ st n, SliceIs total a1p idx a2p len st n) :
    sliceRange total a1p idx a2p len = .error .invalidArgument := by
  unfold sliceRange
  dsimp only
  split
  · rfl
  · split
    · rfl
    · rename_i h1 h2
      refine absurd ⟨(startIndex a1p idx).toNat,
        (sliceLength total (startIndex a1p idx) a2p len).toNat, ?_, ?_, ?_⟩ h
      · rw [Int.toNat_of_nonneg (by omega)]; rfl
      · rw [Int.toNat_of_nonneg (by omega), Int.toNat_of_nonneg (by omega)]; rfl
      · omega

/-- `SliceFixed` answers the offset, when the operand is long enough. -/
theorem sliceFixed_of_offsetIs {total : Nat} {a1p : Bool} {idx : Word} {w o : Nat}
    (h : OffsetIs total a1p idx w o) : sliceFixed total a1p idx w = .ok o := by
  obtain ⟨ho, hle⟩ := h
  have ho' : startIndex a1p idx = (o : Int) := by rw [ho]; rfl
  unfold sliceFixed
  simp only [ho']
  rw [if_neg (by omega)]
  simp

/-- `SliceFixed` raises InvalidArgument otherwise. -/
theorem sliceFixed_of_not_offsetIs {total : Nat} {a1p : Bool} {idx : Word} {w : Nat}
    (h : ¬ ∃ o, OffsetIs total a1p idx w o) :
    sliceFixed total a1p idx w = .error .invalidArgument := by
  unfold sliceFixed
  dsimp only
  split
  · rfl
  · rename_i h1
    refine absurd ⟨(startIndex a1p idx).toNat, ?_, ?_⟩ h
    · rw [Int.toNat_of_nonneg (by omega)]; rfl
    · omega

@[simp] theorem length_elements {α : Type} (l : List α) (s n : Nat) :
    (elements l s n).length = min n (l.length - s) := by simp [elements]

/-- `{high, low}` is the byte. -/
theorem highNibble_append_lowNibble (b : Byte) : highNibble b ++ lowNibble b = b := by
  revert b; decide

@[simp] theorem highNibble_append (h l : Nibble) : highNibble (h ++ l) = h := by
  revert h l; decide

@[simp] theorem lowNibble_append (h l : Nibble) : lowNibble (h ++ l) = l := by
  revert h l; decide

@[simp] theorem nibblesOf_nil : nibblesOf [] = [] := rfl

@[simp] theorem nibblesOf_cons (x : Byte) (b : List Byte) :
    nibblesOf (x :: b) = highNibble x :: lowNibble x :: nibblesOf b := rfl

@[simp] theorem length_nibblesOf (b : List Byte) : (nibblesOf b).length = 2 * b.length := by
  induction b with
  | nil => rfl
  | cons x b ih => simp [ih]; omega

/-- Packing the nibbles of a buffer gives the buffer. -/
theorem bytesOfNibbles_nibblesOf (b : List Byte) : bytesOfNibbles (nibblesOf b) = b := by
  induction b with
  | nil => rfl
  | cons x b ih => simp [bytesOfNibbles, ih, highNibble_append_lowNibble]

/-- The nibbles of a packed stream of even length are the stream. -/
theorem nibblesOf_bytesOfNibbles : ∀ {n : Nat} {l : List Nibble}, l.length = 2 * n →
    nibblesOf (bytesOfNibbles l) = l
  | 0, l, h => by
    have : l = [] := List.length_eq_zero_iff.mp (by omega)
    subst this; rfl
  | n + 1, l, h => by
    match l, h with
    | x :: y :: l, h =>
      have : l.length = 2 * n := by simp at h; omega
      simp [bytesOfNibbles, nibblesOf_bytesOfNibbles this]

theorem length_bytesOfNibbles {n : Nat} {l : List Nibble} (h : l.length = 2 * n) :
    (bytesOfNibbles l).length = n := by
  have := congrArg List.length (nibblesOf_bytesOfNibbles h)
  simp at this; omega

end Sys2Proof.Machine
end

