-- ==== Sys2Proof/Laws/TextCodec.lean ====
section
/-! SUPPORT. The ROM lookups and the loop of the text encoder. -/

namespace Sys2Proof.Machine

variable {rom : TextRom}

/-- `ROM(i)` is entry `i` of the table as a list. -/
theorem romRead_eq_getElem (i : Byte) :
    romRead rom i = rom.toList[i.toNat]'(by simpa using i.isLt) := by
  simp [romRead]

/-- What `ROM_INV` finds holds the scalar. -/
theorem romRead_of_romInv {c : Scalar} {i : Byte} (h : romInv rom c = some i) :
    romRead rom i = c := by
  unfold romInv at h
  obtain ⟨k, hk, rfl⟩ := Option.map_eq_some_iff.mp h
  obtain ⟨hlt, hc, -⟩ := List.findIdx?_eq_some_iff_getElem.mp hk
  have hk256 : k < 256 := by simpa using hlt
  rw [romRead_eq_getElem]
  simpa [Nat.mod_eq_of_lt hk256] using hc

/-- `ROM_INV` finds nothing exactly where the table does not hold the scalar. -/
theorem romInv_eq_none {c : Scalar} : romInv rom c = none ↔ ∀ i, romRead rom i ≠ c := by
  unfold romInv
  rw [Option.map_eq_none_iff, List.findIdx?_eq_none_iff]
  constructor
  · intro h i hi
    have := h (romRead rom i) (by rw [romRead_eq_getElem]; exact List.getElem_mem _)
    simp [hi] at this
  · intro h x hx
    obtain ⟨k, hk, rfl⟩ := List.getElem_of_mem hx
    have hk256 : k < 256 := by simpa using hk
    have := h (BitVec.ofNat 8 k)
    rw [romRead_eq_getElem] at this
    simpa [Nat.mod_eq_of_lt hk256] using this

/-- `ROM_INV` finds the index of every entry of an injective table. -/
theorem romInv_romRead (h : RomAdmissible rom) (i : Byte) : romInv rom (romRead rom i) = some i := by
  cases hf : romInv rom (romRead rom i) with
  | none => exact absurd rfl (romInv_eq_none.mp hf i)
  | some j => rw [h.injective _ _ (romRead_of_romInv hf)]

/-- The encoder gives back the codes a text was read from. -/
theorem encodeScalars_map_romRead (h : RomAdmissible rom) (b : List Byte) :
    encodeScalars rom (b.map (romRead rom)) = .ok b := by
  induction b with
  | nil => rfl
  | cons i b ih => simp [encodeScalars, romInv_romRead h, ih]

/-- The encoder succeeds with bytes only if they read as the text. -/
theorem map_romRead_of_encodeScalars {t : List Scalar} {b : List Byte}
    (h : encodeScalars rom t = .ok b) : b.map (romRead rom) = t := by
  induction t generalizing b with
  | nil => cases h; rfl
  | cons c t ih =>
    unfold encodeScalars at h
    split at h
    · cases h
    · rename_i i hi
      split at h
      · cases h
      · rename_i out ho
        cases h
        simp [ih ho, romRead_of_romInv hi]

/-- The encoder fails with UnmappableCharacter where some scalar has no entry, and only there. -/
theorem encodeScalars_error_iff {t : List Scalar} {e : Error} :
    encodeScalars rom t = .error e ↔
      e = .unmappableCharacter ∧ ∃ c ∈ t, ∀ i, romRead rom i ≠ c := by
  induction t with
  | nil => simp [encodeScalars]
  | cons c t ih =>
    unfold encodeScalars
    split
    · rename_i hn
      have := romInv_eq_none.mp hn
      constructor
      · intro h; cases h; exact ⟨rfl, c, by simp, this⟩
      · rintro ⟨rfl, -⟩; rfl
    · rename_i i hi
      have hi' := romRead_of_romInv hi
      have hex : (∃ x ∈ c :: t, ∀ i, romRead rom i ≠ x) ↔ ∃ x ∈ t, ∀ i, romRead rom i ≠ x := by
        simp only [List.mem_cons, exists_eq_or_imp]
        constructor
        · rintro (h | h)
          · exact absurd hi' (h i)
          · exact h
        · exact .inr
      rw [hex]
      split
      · rename_i e' he
        rw [← ih, he]
      · rename_i out ho
        rw [← ih, ho]
        simp

/-- Where every scalar has an entry, the encoder succeeds. -/
theorem encodeScalars_of_mapped {t : List Scalar} (h : ∀ c ∈ t, ∃ i, romRead rom i = c) :
    ∃ b, encodeScalars rom t = .ok b ∧ b.map (romRead rom) = t := by
  cases he : encodeScalars rom t with
  | ok b => exact ⟨b, rfl, map_romRead_of_encodeScalars he⟩
  | error e =>
    obtain ⟨-, c, hc, hn⟩ := encodeScalars_error_iff.mp he
    obtain ⟨i, hi⟩ := h c hc
    exact absurd hi (hn i)

end Sys2Proof.Machine
end

