-- ==== Sys2Proof/Laws/DefaultRom.lean ====
section
/-! SUPPORT. The default table is admissible, and its image is `U+0000..U+00FF` (10_state.md R28). -/

namespace Sys2Proof.Machine

/-- No number of the list occurs twice or is in the bit set `seen`: one pass over the list. -/
def distinctFrom : Nat → List Nat → Bool
  | _, [] => true
  | seen, c :: rest => !seen.testBit c && distinctFrom (seen ||| 1 <<< c) rest

theorem nodup_of_distinctFrom : ∀ {seen : Nat} {l : List Nat}, distinctFrom seen l = true →
    l.Nodup ∧ ∀ c ∈ l, seen.testBit c = false
  | _, [], _ => by simp
  | seen, c :: rest, h => by
    simp only [distinctFrom, Bool.and_eq_true, Bool.not_eq_true'] at h
    obtain ⟨hc, hr⟩ := h
    obtain ⟨hn, hs⟩ := nodup_of_distinctFrom hr
    simp only [Nat.testBit_or, Bool.or_eq_false_iff] at hs
    refine ⟨List.nodup_cons.mpr ⟨fun hm => ?_, hn⟩, ?_⟩
    · have := (hs c hm).2
      simp [Nat.testBit_shiftLeft] at this
    · intro x hx
      rcases List.mem_cons.mp hx with rfl | hx
      · exact hc
      · exact (hs x hx).1

/-- The entries of the default table as numbers, in code order. -/
abbrev defaultRomNats : List Nat := defaultRomList.map BitVec.toNat

theorem defaultRomNats_nodup : defaultRomNats.Nodup :=
  (nodup_of_distinctFrom (seen := 0) (by decide +kernel)).1

theorem defaultRomNats_length : defaultRomNats.length = 256 := by decide +kernel

theorem defaultRomNats_small : ∀ c ∈ defaultRomNats, c < 256 := by
  have : defaultRomNats.all (fun c => c < 256) = true := by decide +kernel
  simpa only [List.all_eq_true, decide_eq_true_eq] using this

theorem defaultRom_toNat (i : Byte) :
    (romRead defaultTextRom i).toNat =
      defaultRomNats[i.toNat]'(by rw [defaultRomNats_length]; exact i.isLt) := by
  rw [romRead_eq_getElem, List.getElem_map]
  rfl

theorem defaultRom_small (i : Byte) : (romRead defaultTextRom i).toNat < 256 := by
  rw [defaultRom_toNat]
  exact defaultRomNats_small _ (List.getElem_mem _)

theorem defaultTextRom_admissible : RomAdmissible defaultTextRom where
  injective i j h := by
    have := congrArg BitVec.toNat h
    rw [defaultRom_toNat, defaultRom_toNat, defaultRomNats_nodup.getElem_inj_iff] at this
    exact BitVec.eq_of_toNat_eq this
  scalars i := by
    have := defaultRom_small i
    exact ⟨by omega, by omega⟩
  fixed := by
    have : fixedEntries.all (fun e => romRead defaultTextRom e.1 = e.2) = true := by
      decide +kernel
    simpa only [List.all_eq_true, decide_eq_true_eq] using this

/-- Every scalar below `U+0100` stands in the table. -/
theorem defaultRom_onto {c : Scalar} (h : c.toNat < 256) : ∃ i, romRead defaultTextRom i = c := by
  have hsub : defaultRomNats.toFinset ⊆ Finset.range 256 := by
    intro x hx
    exact Finset.mem_range.mpr (defaultRomNats_small x (List.mem_toFinset.mp hx))
  have heq : defaultRomNats.toFinset = Finset.range 256 := by
    refine Finset.eq_of_subset_of_card_le hsub ?_
    rw [List.toFinset_card_of_nodup defaultRomNats_nodup, defaultRomNats_length, Finset.card_range]
  have hmem : c.toNat ∈ defaultRomNats := by
    rw [← List.mem_toFinset, heq]; exact Finset.mem_range.mpr h
  obtain ⟨k, hk, hkc⟩ := List.getElem_of_mem hmem
  have hk256 : k < 256 := by rw [defaultRomNats_length] at hk; exact hk
  refine ⟨BitVec.ofNat 8 k, BitVec.eq_of_toNat_eq ?_⟩
  rw [defaultRom_toNat]
  simpa [Nat.mod_eq_of_lt hk256] using hkc

theorem defaultParams_admissible : defaultParams.Admissible where
  posAccept := by decide
  negAccept := by decide
  posExtra := by decide
  disjoint := by decide
  disjointZd := by decide
  posSign := by decide
  negSign := by decide

end Sys2Proof.Machine
end

