-- ==== Sys2Proof/Laws/Rounding.lean ====
section
/-! SUPPORT. The natural-number arithmetic of the converters is exact rational arithmetic: scaling,
`floor(log2 v)` and `RoundInt`. -/

namespace Sys2Proof.Machine

theorem scaleDen_pos {den : Nat} (h : 0 < den) (k : Int) : 0 < scaleDen den k := by
  unfold scaleDen; positivity

/-- Scaling multiplies by the power of two. -/
theorem scale_eq (num den : Nat) (k : Int) :
    (scaleNum num k : ℚ) / scaleDen den k = (num : ℚ) / den * 2 ^ k := by
  unfold scaleNum scaleDen
  rcases Int.le_total 0 k with h | h
  · obtain ⟨n, rfl⟩ := Int.eq_ofNat_of_zero_le h
    simp; ring
  · obtain ⟨n, hn⟩ := Int.eq_ofNat_of_zero_le (by omega : 0 ≤ -k)
    obtain rfl : k = -(n : ℤ) := by omega
    simp [zpow_neg, div_eq_mul_inv, mul_assoc, mul_comm]

/-- `RoundInt` over natural numbers is `RoundInt` over rationals (00_scope.md R14). -/
theorem roundInt_eq_roundRat (mode : Rounding) (num : Nat) {den : Nat} (h : 0 < den) :
    (roundInt mode num den : ℤ) = roundRat mode ((num : ℚ) / den) := by
  have hfloor : ⌊(num : ℚ) / den⌋ = ((num / den : ℕ) : ℤ) := by
    rw [Rat.floor_natCast_div_natCast]; rfl
  have hd : (0 : ℚ) < den := by exact_mod_cast h
  have hr : (num : ℚ) / den - ((num / den : ℕ) : ℤ) = ((num % den : ℕ) : ℚ) / den := by
    have := congrArg (Nat.cast (R := ℚ)) (Nat.div_add_mod num den)
    rw [Nat.cast_add, Nat.cast_mul] at this
    rw [Int.cast_natCast, eq_div_iff hd.ne', sub_mul, div_mul_cancel₀ _ hd.ne']
    linarith
  have hlt : ((num % den : ℕ) : ℚ) / den < 1 / 2 ↔ 2 * (num % den) < den := by
    rw [div_lt_div_iff₀ hd (by norm_num)]
    constructor
    · intro h; have : ((num % den * 2 : ℕ) : ℚ) < ((1 * den : ℕ) : ℚ) := by push_cast; exact_mod_cast h
      have := Nat.cast_lt.mp this; omega
    · intro h; have : num % den * 2 < 1 * den := by omega
      exact_mod_cast this
  have hgt : 1 / 2 < ((num % den : ℕ) : ℚ) / den ↔ den < 2 * (num % den) := by
    rw [div_lt_div_iff₀ (by norm_num) hd]
    constructor
    · intro h; have : ((1 * den : ℕ) : ℚ) < ((num % den * 2 : ℕ) : ℚ) := by push_cast; exact_mod_cast h
      have := Nat.cast_lt.mp this; omega
    · intro h; have : 1 * den < num % den * 2 := by omega
      exact_mod_cast this
  unfold roundInt roundRat
  simp only [hfloor, hr, hlt, hgt]
  split
  · rfl
  · split
    · push_cast; rfl
    · cases mode with
      | rne => dsimp only; split <;> split <;> first | (push_cast; rfl) | omega
      | rhu => push_cast; rfl

/-- The exponent of a positive rational between two powers of two is unique. -/
theorem exponent_unique {v : ℚ} {t u : ℤ} (h1 : (2 : ℚ) ^ t ≤ v) (h2 : v < 2 ^ (t + 1))
    (h3 : (2 : ℚ) ^ u ≤ v) (h4 : v < 2 ^ (u + 1)) : t = u := by
  have a := (zpow_lt_zpow_iff_right₀ (by norm_num : (1 : ℚ) < 2)).mp (lt_of_le_of_lt h1 h4)
  have b := (zpow_lt_zpow_iff_right₀ (by norm_num : (1 : ℚ) < 2)).mp (lt_of_le_of_lt h3 h2)
  omega

theorem log2_bounds {n : Nat} (h : 0 < n) : (2 : ℚ) ^ (n.log2 : ℤ) ≤ n ∧ (n : ℚ) < 2 ^ ((n.log2 : ℤ) + 1) := by
  constructor
  · have := Nat.log2_self_le (by omega : n ≠ 0)
    rw [zpow_natCast]; exact_mod_cast this
  · have := Nat.lt_log2_self (n := n)
    rw [← Nat.cast_succ, zpow_natCast]; exact_mod_cast this

/-- `floorLog2` is the exponent (41_hexfloat_codec.md R124). -/
theorem floorLog2_spec {num den : Nat} (hn : 0 < num) (hd : 0 < den) :
    (2 : ℚ) ^ floorLog2 num den ≤ (num : ℚ) / den ∧
      (num : ℚ) / den < 2 ^ (floorLog2 num den + 1) := by
  obtain ⟨n1, n2⟩ := log2_bounds hn
  obtain ⟨d1, d2⟩ := log2_bounds hd
  have hdq : (0 : ℚ) < den := by exact_mod_cast hd
  set a : ℤ := (num.log2 : ℤ) - den.log2 with ha
  have h2 : (2 : ℚ) ≠ 0 := by norm_num
  have hup : (num : ℚ) / den < 2 ^ (a + 1) := by
    rw [div_lt_iff₀ hdq]
    calc (num : ℚ) < 2 ^ ((num.log2 : ℤ) + 1) := n2
      _ = 2 ^ (a + 1) * 2 ^ (den.log2 : ℤ) := by rw [← zpow_add₀ h2]; congr 1; omega
      _ ≤ 2 ^ (a + 1) * den := by gcongr
  have hlo : (2 : ℚ) ^ (a - 1) ≤ (num : ℚ) / den := by
    rw [le_div_iff₀ hdq]
    calc (2 : ℚ) ^ (a - 1) * den ≤ 2 ^ (a - 1) * 2 ^ ((den.log2 : ℤ) + 1) := by gcongr
      _ = 2 ^ (num.log2 : ℤ) := by rw [← zpow_add₀ h2]; congr 1; omega
      _ ≤ num := n1
  have hcmp : scaleDen den (-a) ≤ scaleNum num (-a) ↔ (2 : ℚ) ^ a ≤ (num : ℚ) / den := by
    have hsd : (0 : ℚ) < scaleDen den (-a) := by exact_mod_cast scaleDen_pos hd _
    have hs := scale_eq num den (-a)
    have : scaleDen den (-a) ≤ scaleNum num (-a) ↔
        (1 : ℚ) ≤ (scaleNum num (-a) : ℚ) / scaleDen den (-a) := by
      rw [le_div_iff₀ hsd, one_mul, Nat.cast_le]
    rw [this, hs, zpow_neg, ← div_eq_mul_inv, le_div_iff₀ (by positivity), one_mul]
  unfold floorLog2
  simp only [← ha]
  split
  · rename_i h; exact ⟨hcmp.mp h, hup⟩
  · rename_i h
    refine ⟨hlo, ?_⟩
    rw [hcmp, not_le] at h
    simpa using h

theorem floor_le_roundRat (mode : Rounding) (q : ℚ) : ⌊q⌋ ≤ roundRat mode q := by
  unfold roundRat
  dsimp only
  split
  · exact le_rfl
  · split
    · omega
    · cases mode with
      | rne => dsimp only; split <;> omega
      | rhu => dsimp only; omega

theorem roundRat_le_floor_add_one (mode : Rounding) (q : ℚ) : roundRat mode q ≤ ⌊q⌋ + 1 := by
  unfold roundRat
  dsimp only
  split
  · omega
  · split
    · exact le_rfl
    · cases mode with
      | rne => dsimp only; split <;> omega
      | rhu => exact le_rfl

/-- `RoundInt` is within half a unit (00_scope.md R14). -/
theorem abs_roundRat_sub_le (mode : Rounding) (q : ℚ) : |(roundRat mode q : ℚ) - q| ≤ 1 / 2 := by
  have h0 := Int.floor_le q
  have h1 := Int.lt_floor_add_one q
  have key : ∀ n : ℤ, (n = ⌊q⌋ ∧ q - ⌊q⌋ ≤ 1 / 2) ∨ (n = ⌊q⌋ + 1 ∧ 1 / 2 ≤ q - ⌊q⌋) →
      |(n : ℚ) - q| ≤ 1 / 2 := by
    rintro n (⟨rfl, h⟩ | ⟨rfl, h⟩)
    · rw [abs_le]; constructor <;> linarith
    · push_cast; rw [abs_le]; constructor <;> linarith
  apply key
  unfold roundRat
  dsimp only
  split
  · exact .inl ⟨rfl, by linarith⟩
  · split
    · exact .inr ⟨rfl, by linarith⟩
    · cases mode with
      | rne =>
        dsimp only
        split
        · exact .inl ⟨rfl, by linarith⟩
        · exact .inr ⟨rfl, by linarith⟩
      | rhu => exact .inr ⟨rfl, by linarith⟩

/-- An integer is rounded to itself. -/
theorem roundRat_intCast (mode : Rounding) (n : ℤ) : roundRat mode (n : ℚ) = n := by
  simp [roundRat]

end Sys2Proof.Machine
end

