-- ==== Sys2Proof/Laws/HexFloat.lean ====
section
/-! SUPPORT. The float32 and HFP formats: their fields, their values, and what the encoder and the
decoder compute, over rationals. -/

namespace Sys2Proof.Machine

/-- The number a concatenation denotes. -/
theorem toNat_append_eq {m n : Nat} (x : BitVec m) (y : BitVec n) :
    (x ++ y).toNat = x.toNat * 2 ^ n + y.toNat := by
  rw [BitVec.toNat_append, ← Nat.shiftLeft_add_eq_or_of_lt y.isLt, Nat.shiftLeft_eq]

/-- Bit 31 of a float32 pattern is its sign, bits 30:23 and 22:0 its exponent and fraction. -/
theorem f32_toNat (f : Word) :
    f.toNat = (if f32Sign f then 2 ^ 31 else 0) + f32Exponent f * 2 ^ 23 + f32Fraction f := by
  have hlt : f.toNat < 2 ^ 32 := f.isLt
  have hs : f32Sign f = decide (2 ^ 31 ≤ f.toNat) := by
    unfold f32Sign
    rw [show f.getLsbD 31 = f.msb by simp [BitVec.msb_eq_getLsbD_last], BitVec.msb_eq_decide]
  rw [hs]
  simp only [f32Exponent, f32Fraction, BitVec.extractLsb'_toNat, Nat.shiftRight_eq_div_pow,
    decide_eq_true_eq]
  split <;> omega

theorem f32Exponent_lt (f : Word) : f32Exponent f < 256 := by
  unfold f32Exponent; exact (f.extractLsb' 23 8).isLt

theorem f32Fraction_lt (f : Word) : f32Fraction f < 2 ^ 23 := by
  unfold f32Fraction; exact (f.extractLsb' 0 23).isLt

/-- The fields determine the pattern. -/
theorem f32_ext {f g : Word} (hs : f32Sign f = f32Sign g) (he : f32Exponent f = f32Exponent g)
    (hf : f32Fraction f = f32Fraction g) : f = g := by
  apply BitVec.eq_of_toNat_eq
  rw [f32_toNat, f32_toNat, hs, he, hf]

/-- The fields of a pattern put together from fields. -/
theorem f32_fields (s : Bool) {x : ℤ} {m : Nat} (hx0 : 0 ≤ x) (hx : x < 256) (hm : m < 2 ^ 23)
    {f : Word} (hf : f = BitVec.ofBool s ++ BitVec.ofInt 8 x ++ BitVec.ofNat 23 m) :
    f32Sign f = s ∧ (f32Exponent f : ℤ) = x ∧ f32Fraction f = m := by
  obtain ⟨n, rfl⟩ := Int.eq_ofNat_of_zero_le hx0
  have hn : n < 256 := by omega
  have htoNat : f.toNat = (if s then 2 ^ 31 else 0) + n * 2 ^ 23 + m := by
    rw [hf, toNat_append_eq, toNat_append_eq]
    cases s <;> simp <;> omega
  have h := f32_toNat f
  have he := f32Exponent_lt f
  have hfr := f32Fraction_lt f
  rw [htoNat] at h
  cases s <;> cases hs : f32Sign f <;> simp [hs] at h ⊢ <;> omega

/-- The magnitude of a float32 value, over its significand and exponent (41_hexfloat_codec.md
R123, R125). -/
theorem abs_f32Value (f : Word) : |f32Value f| = f32Significand f * (2 : ℚ) ^ f32Scale f := by
  have hs : |signFactor (f32Sign f)| = 1 := by cases f32Sign f <;> simp [signFactor]
  unfold f32Value f32Significand f32Scale
  split
  · rw [abs_mul, abs_mul, hs, one_mul, abs_of_nonneg (by positivity : (0 : ℚ) ≤ f32Fraction f),
      abs_of_pos (by positivity)]
  · rw [abs_mul, abs_mul, hs, one_mul, abs_of_nonneg (by positivity), abs_of_pos (by positivity)]
    push_cast
    rfl

theorem f32Value_eq (f : Word) : f32Value f = signFactor (f32Sign f) * |f32Value f| := by
  rw [abs_f32Value]
  unfold f32Value f32Significand f32Scale
  split
  · ring
  · push_cast; ring

theorem f32Significand_lt (f : Word) : f32Significand f < 2 ^ 24 := by
  have := f32Fraction_lt f
  unfold f32Significand; split <;> omega

theorem f32Scale_bounds (f : Word) (h : f32Exponent f ≠ 0xFF) :
    -149 ≤ f32Scale f ∧ f32Scale f ≤ 104 := by
  have := f32Exponent_lt f
  unfold f32Scale; split <;> omega

/-- The magnitude of an HFP word, `Mt * 2^(4*X - 280)` (41_hexfloat_codec.md R121). -/
theorem abs_hfpValue (h0 h1 h2 h3 : Byte) :
    |hfpValue h0 h1 h2 h3| =
      (hfpMantissa h1 h2 h3 : ℚ) * 2 ^ (4 * (hfpExponent h0 : ℤ) - 280) := by
  have hs : |signFactor (hfpSign h0)| = 1 := by cases hfpSign h0 <;> simp [signFactor]
  unfold hfpValue
  rw [abs_mul, abs_mul, hs, one_mul, abs_of_pos (by positivity), abs_of_nonneg (by positivity),
    show (16 : ℚ) = 2 ^ (4 : ℤ) by norm_num, ← zpow_mul, ← zpow_natCast, ← zpow_mul,
    show 4 * (hfpExponent h0 : ℤ) - 280 = 4 * ((hfpExponent h0 : ℤ) - 64) - 4 * 6 by ring,
    zpow_sub₀ (by norm_num)]
  push_cast
  ring

theorem hfpValue_eq (h0 h1 h2 h3 : Byte) :
    hfpValue h0 h1 h2 h3 = signFactor (hfpSign h0) * |hfpValue h0 h1 h2 h3| := by
  have : (0 : ℚ) ≤ 16 ^ ((hfpExponent h0 : ℤ) - 64) * (hfpMantissa h1 h2 h3 / 16 ^ 6) := by
    positivity
  unfold hfpValue
  rw [mul_assoc, abs_mul, abs_of_nonneg this]
  cases hfpSign h0 <;> simp [signFactor]

theorem hfpMantissa_lt (h1 h2 h3 : Byte) : hfpMantissa h1 h2 h3 < 2 ^ 24 :=
  (h1 ++ h2 ++ h3 : BitVec 24).isLt

theorem hfpExponent_lt (h0 : Byte) : hfpExponent h0 < 128 := (h0.extractLsb' 0 7).isLt

theorem hfp_toNat (h0 : Byte) :
    h0.toNat = (if hfpSign h0 then 128 else 0) + hfpExponent h0 := by
  revert h0; decide

/-- The fields of the word `hfpBytes` makes. -/
theorem hfpBytes_fields (s : Bool) {x : ℤ} {mt : Nat} (hx0 : 0 ≤ x) (hx : x < 128)
    (hm : mt < 2 ^ 24) :
    ∃ h0 h1 h2 h3, hfpBytes s x mt = [h0, h1, h2, h3] ∧ hfpSign h0 = s ∧
      (hfpExponent h0 : ℤ) = x ∧ hfpMantissa h1 h2 h3 = mt := by
  obtain ⟨n, rfl⟩ := Int.eq_ofNat_of_zero_le hx0
  have hn : n < 128 := by omega
  refine ⟨_, _, _, _, rfl, ?_⟩
  have h0 : (BitVec.ofBool s ++ BitVec.ofInt 7 (n : ℤ) : Byte).toNat =
      (if s then 128 else 0) + n := by
    rw [toNat_append_eq]
    cases s <;> simp <;> omega
  generalize (BitVec.ofBool s ++ BitVec.ofInt 7 (n : ℤ) : Byte) = b0 at h0 ⊢
  have hf := hfp_toNat b0
  have hlt := hfpExponent_lt b0
  rw [h0] at hf
  refine ⟨?_, ?_, ?_⟩
  · cases s <;> cases hs : hfpSign b0 <;> simp [hs] at hf ⊢ <;> omega
  · cases s <;> cases hs : hfpSign b0 <;> simp [hs] at hf <;> omega
  · unfold hfpMantissa
    rw [toNat_append_eq, toNat_append_eq]
    simp only [BitVec.extractLsb'_toNat, Nat.shiftRight_eq_div_pow, BitVec.toNat_ofNat]
    omega

/-- The magnitude HFP_ENC works on is between two powers of 16 (41_hexfloat_codec.md R125, step
3). -/
theorem hfp_exponent_bounds {S : Nat} (hS : 0 < S) (b : ℤ) :
    (16 : ℚ) ^ (((S.log2 : ℤ) + b) / 4 + 1 - 1) ≤ S * 2 ^ b ∧
      (S : ℚ) * 2 ^ b < 16 ^ (((S.log2 : ℤ) + b) / 4 + 1) := by
  obtain ⟨h1, h2⟩ := log2_bounds hS
  have h16 : (16 : ℚ) = 2 ^ (4 : ℤ) := by norm_num
  have two : (2 : ℚ) ≠ 0 := by norm_num
  rw [h16, ← zpow_mul, ← zpow_mul]
  constructor
  · calc (2 : ℚ) ^ (4 * (((S.log2 : ℤ) + b) / 4 + 1 - 1)) ≤ 2 ^ ((S.log2 : ℤ) + b) :=
          zpow_le_zpow_right₀ (by norm_num) (by omega)
      _ = 2 ^ (S.log2 : ℤ) * 2 ^ b := zpow_add₀ two _ _
      _ ≤ S * 2 ^ b := by gcongr
  · calc (S : ℚ) * 2 ^ b < 2 ^ ((S.log2 : ℤ) + 1) * 2 ^ b := by gcongr
      _ = 2 ^ ((S.log2 : ℤ) + 1 + b) := (zpow_add₀ two _ _).symm
      _ ≤ 2 ^ (4 * (((S.log2 : ℤ) + b) / 4 + 1)) :=
          zpow_le_zpow_right₀ (by norm_num) (by omega)

/-- Only one exponent of 16 bounds a magnitude. -/
theorem hfp_exponent_unique {v : ℚ} {e u : ℤ} (h1 : (16 : ℚ) ^ (e - 1) ≤ v) (h2 : v < 16 ^ e)
    (h3 : (16 : ℚ) ^ (u - 1) ≤ v) (h4 : v < 16 ^ u) : e = u := by
  have a := (zpow_lt_zpow_iff_right₀ (by norm_num : (1 : ℚ) < 16)).mp (lt_of_le_of_lt h1 h4)
  have b := (zpow_lt_zpow_iff_right₀ (by norm_num : (1 : ℚ) < 16)).mp (lt_of_le_of_lt h3 h2)
  omega

/-- What HFP_ENC makes of a nonzero magnitude, and the facts of 41_hexfloat_codec.md R126 (a) to
(c): the exponent's range, the mantissa's range, and that a rounded mantissa is at most `2^23`. -/
theorem hfpEncodeMagnitude_spec (mode : Rounding) (s : Bool) {S : Nat} {b e : ℤ} (hS : 0 < S)
    (hS' : S < 2 ^ 24) (hb : -149 ≤ b) (hb' : b ≤ 104) (h1 : (16 : ℚ) ^ (e - 1) ≤ S * 2 ^ b)
    (h2 : (S : ℚ) * 2 ^ b < 16 ^ e) :
    ∃ mt : Nat, (mt : ℤ) = roundRat mode (S * 2 ^ b / 16 ^ e * 16 ^ 6) ∧
      2 ^ 20 ≤ mt ∧ mt < 2 ^ 24 ∧ -37 ≤ e ∧ e ≤ 32 ∧
      ((∀ n : ℤ, (S : ℚ) * 2 ^ b / 16 ^ e * 16 ^ 6 ≠ n) → mt ≤ 2 ^ 23) ∧
      hfpEncodeMagnitude mode s S b = .ok (hfpBytes s (e + 64) mt) := by
  obtain ⟨g1, g2⟩ := hfp_exponent_bounds hS b
  have he := hfp_exponent_unique h1 h2 g1 g2
  have hlog : S.log2 ≤ 23 := by
    have := (Nat.log2_lt (by omega : S ≠ 0)).mpr hS'
    omega
  set k : ℤ := b + 24 - 4 * e with hk
  set q : ℚ := (S : ℚ) * 2 ^ b / 16 ^ e * 16 ^ 6 with hq
  have two : (2 : ℚ) ≠ 0 := by norm_num
  have hqk : q = (S : ℚ) * 2 ^ k := by
    rw [hq, hk, show (16 : ℚ) = 2 ^ (4 : ℤ) by norm_num, ← zpow_natCast, ← zpow_mul, ← zpow_mul,
      show b + 24 - 4 * e = b + (-(4 * e) + 4 * ((6 : ℕ) : ℤ)) by push_cast; ring, zpow_add₀ two,
      zpow_add₀ two, zpow_neg]
    ring
  have hround : (roundInt mode (scaleNum S k) (scaleDen 1 k) : ℤ) = roundRat mode q := by
    rw [roundInt_eq_roundRat mode _ (scaleDen_pos one_pos k), scale_eq, hqk]
    simp
  have hqlo : (2 : ℚ) ^ 20 ≤ q := by
    have : (16 : ℚ) ^ (e - 1) / 16 ^ e * 16 ^ 6 ≤ q := by rw [hq]; gcongr
    rw [zpow_sub_one₀ (by norm_num)] at this
    have h16 : (16 : ℚ) ^ e ≠ 0 := by positivity
    field_simp at this
    norm_num at this ⊢
    linarith
  have hqhi : q < 2 ^ 24 := by
    have : q < (16 : ℚ) ^ e / 16 ^ e * 16 ^ 6 := by rw [hq]; gcongr
    rw [div_self (by positivity)] at this
    norm_num at this ⊢
    exact this
  have hlo : 2 ^ 20 ≤ roundRat mode q := by
    refine le_trans ?_ (floor_le_roundRat mode q)
    exact Int.le_floor.mpr (by exact_mod_cast hqlo)
  have hint : 0 ≤ k → q = ((S * 2 ^ k.toNat : ℕ) : ℤ) := by
    intro hk0
    obtain ⟨n, hn⟩ := Int.eq_ofNat_of_zero_le hk0
    rw [hqk, hn]
    simp
  have hhalf : k < 0 → roundRat mode q ≤ 2 ^ 23 := by
    intro hk0
    have : q < 2 ^ 23 := by
      rw [hqk]
      calc (S : ℚ) * 2 ^ k ≤ S * 2 ^ (-1 : ℤ) := by
            gcongr
            · norm_num
            · omega
        _ < 2 ^ 24 * 2 ^ (-1 : ℤ) := by gcongr; exact_mod_cast hS'
        _ = 2 ^ 23 := by norm_num
    have hfl : ⌊q⌋ < 2 ^ 23 := Int.floor_lt.mpr (by exact_mod_cast this)
    have := roundRat_le_floor_add_one mode q
    omega
  have hhi : roundRat mode q < 2 ^ 24 := by
    rcases lt_or_ge k 0 with h | h
    · have := hhalf h; omega
    · have hqi := hint h
      rw [hqi, roundRat_intCast]
      rw [hqi] at hqhi
      exact_mod_cast hqhi
  refine ⟨roundInt mode (scaleNum S k) (scaleDen 1 k), hround, by omega, by omega, by omega,
    by omega, ?_, ?_⟩
  · intro hn
    rcases lt_or_ge k 0 with h | h
    · have := hhalf h; omega
    · exact absurd (hint h) (hn _)
  · unfold hfpEncodeMagnitude
    simp only [← he, ← hk]
    rw [if_neg (by omega), if_neg (by omega), if_neg (by omega), if_neg (by omega)]

/-- `RoundF32` of a rational between two powers of two (41_hexfloat_codec.md R124). -/
theorem roundF32_eq (s : Bool) {num den : Nat} {t : ℤ} (hn : 0 < num) (hd : 0 < den)
    (h1 : (2 : ℚ) ^ t ≤ (num : ℚ) / den) (h2 : (num : ℚ) / den < 2 ^ (t + 1)) :
    ∃ sig fld : Nat, (sig : ℤ) = roundRat .rne ((num : ℚ) / den * 2 ^ (23 - t)) ∧
      (fld : ℤ) = roundRat .rne ((num : ℚ) / den * 2 ^ (149 : ℤ)) ∧
      roundF32 s num den =
        if -126 ≤ t then
          if (if sig = 2 ^ 24 then t + 1 else t) > 127 then .error .overflow
          else .ok (BitVec.ofBool s ++
            BitVec.ofInt 8 ((if sig = 2 ^ 24 then t + 1 else t) + 127) ++
            BitVec.ofNat 23 (if sig = 2 ^ 24 then 2 ^ 23 else sig))
        else .ok (BitVec.ofBool s ++ BitVec.ofNat 31 fld) := by
  obtain ⟨g1, g2⟩ := floorLog2_spec hn hd
  have ht := exponent_unique g1 g2 h1 h2
  refine ⟨roundInt .rne (scaleNum num (23 - t)) (scaleDen den (23 - t)),
    roundInt .rne (scaleNum num 149) (scaleDen den 149), ?_, ?_, ?_⟩
  · rw [roundInt_eq_roundRat _ _ (scaleDen_pos hd _), scale_eq]
  · rw [roundInt_eq_roundRat _ _ (scaleDen_pos hd _), scale_eq]
  · unfold roundF32
    rw [ht]

end Sys2Proof.Machine
end

