-- ==== Sys2Proof/Laws/Ops.lean ====
section
/-! SUPPORT. What the shared operations and the step can do. -/

namespace Sys2Proof.Machine

variable {s t : State} {r : Request} {rest : List Request}

@[simp] theorem finish_ok (q : Response) : finish (.ok q) = q := rfl
@[simp] theorem finish_error (e : Error) : finish (.error e) = { status := statusOf e } := rfl

/-- A command answers the oldest request and changes nothing else. -/
theorem answer_cons (h : s.requests = r :: rest) (f : Request → Except Error Response) :
    answer s f = .next (answered s rest (finish (f r))) := by
  unfold answer; rw [h]; rfl

theorem answer_nil (h : s.requests = []) (f : Request → Except Error Response) :
    answer s f = .fault .noRequest := by
  unfold answer; rw [h]

/-- If a command answers a next state, a request was waiting and that state holds its answer. -/
theorem answer_next {f : Request → Except Error Response} (h : answer s f = .next t) :
    ∃ r rest, s.requests = r :: rest ∧ t = answered s rest (finish (f r)) := by
  match hs : s.requests with
  | [] => rw [answer_nil hs] at h; cases h
  | r :: rest => rw [answer_cons hs] at h; cases h; exact ⟨r, rest, rfl, rfl⟩

/-- The result a command computes from its request: what `exec` answers with. -/
def resultOf (rom : TextRom) (p : Params) : Instr → Request → Except Error Response
  | .txtEnc a1p a2p => txtEncResult rom a1p a2p
  | .txtDec a1p a2p => txtDecResult rom a1p a2p
  | .hfpEnc => hfpEncResult p.hfpRound
  | .hfpDec a1p => hfpDecResult a1p
  | .pdEnc => pdEncResult p
  | .pdDec => pdDecResult p
  | .zdDec => zdDecResult p
  | .i16Enc => i16EncResult
  | .i32Enc => i32EncResult
  | .i16Dec a1p => i16DecResult a1p
  | .i32Dec a1p => i32DecResult a1p

/-- Every meaning is `answer` over the command's result. -/
theorem exec_eq_answer (i : Instr) (s : State) :
    exec i s = answer s (resultOf s.textRom s.params i) := by
  cases i <;> rfl

theorem exec_cons (h : s.requests = r :: rest) (i : Instr) :
    exec i s = .next (answered s rest (finish (resultOf s.textRom s.params i r))) := by
  rw [exec_eq_answer, answer_cons h]

/-- The result of a request: that of its command, or IllegalCommand. -/
def requestResult (rom : TextRom) (p : Params) (r : Request) : Except Error Response :=
  match decode r.cmd with
  | .ok i => resultOf rom p i r
  | .error _ => .error .illegalCommand

theorem step_nil (h : s.requests = []) : step s = .next s := by
  simp [step, nextRequest, h, idle]

theorem step_decoded (h : s.requests = r :: rest) {i : Instr} (hd : decode r.cmd = .ok i) :
    step s = exec i s := by
  simp [step, nextRequest, h, hd]

theorem step_illegal (h : s.requests = r :: rest) {e : DecodeError} (hd : decode r.cmd = .error e) :
    step s = .next (answered s rest { status := 5 }) := by
  simp only [step, nextRequest, h, List.head?_cons, hd, answerIllegal]
  rw [answer_cons h]; rfl

/-- A step answers the oldest request by its result. -/
theorem step_cons (h : s.requests = r :: rest) :
    step s = .next (answered s rest (finish (requestResult s.textRom s.params r))) := by
  unfold requestResult
  cases hd : decode r.cmd with
  | ok i => rw [step_decoded h hd, exec_cons h]
  | error e => rw [step_illegal h hd]; rfl

/-- All that a step can do. -/
theorem step_cases (h : step s = .next t) :
    (s.requests = [] ∧ t = s) ∨
    (∃ r rest, s.requests = r :: rest ∧
      t = answered s rest (finish (requestResult s.textRom s.params r))) := by
  match hs : s.requests with
  | [] => rw [step_nil hs] at h; cases h; exact .inl ⟨rfl, rfl⟩
  | r :: rest => rw [step_cons hs] at h; cases h; exact .inr ⟨r, rest, rfl, rfl⟩

end Sys2Proof.Machine
end

