-- ==== Sys2Proof/Laws/PackedDecimal.lean ====
section
/-! SUPPORT. Decimal digit sequences, the nibble stream, and the checks the two decimal decoders
share. -/

namespace Sys2Proof.Machine

@[simp] theorem valueOfDigits_nil : valueOfDigits [] = 0 := rfl

theorem valueOfDigits_append_singleton (d : List Nibble) (x : Nibble) :
    valueOfDigits (d ++ [x]) = 10 * valueOfDigits d + x.toNat := by
  simp [valueOfDigits]

/-- A leading digit counts by its place. -/
theorem valueOfDigits_cons (x : Nibble) (d : List Nibble) :
    valueOfDigits (x :: d) = x.toNat * 10 ^ d.length + valueOfDigits d := by
  induction d using List.reverseRecOn with
  | nil => simp [valueOfDigits]
  | append_singleton d y ih =>
    rw [← List.cons_append, valueOfDigits_append_singleton, valueOfDigits_append_singleton, ih]
    simp only [List.length_append, List.length_singleton, pow_succ]
    ring

/-- Leading zeros do not count. -/
theorem valueOfDigits_replicate_append (n : Nat) (d : List Nibble) :
    valueOfDigits (List.replicate n 0 ++ d) = valueOfDigits d := by
  induction n with
  | zero => simp
  | succ n ih =>
    rw [List.replicate_succ, List.cons_append, valueOfDigits_cons, ih]
    simp

/-- The value of a digit sequence as the sum over its places (42_packed_decimal_codec.md R155,
R156). -/
theorem valueOfDigits_eq_sum (d : List Nibble) :
    valueOfDigits d = ∑ k ∈ Finset.range d.length, (d.getD k 0).toNat * 10 ^ (d.length - 1 - k) := by
  induction d with
  | nil => rfl
  | cons x d ih =>
    rw [valueOfDigits_cons, List.length_cons, Finset.sum_range_succ', ih, add_comm]
    congr 1
    · apply Finset.sum_congr rfl
      intro k hk
      simp only [List.getD_cons_succ]
      congr 2
      omega

theorem valueOfDigits_lt {d : List Nibble} (h : ∀ x ∈ d, x.toNat ≤ 9) :
    valueOfDigits d < 10 ^ d.length := by
  induction d with
  | nil => simp
  | cons x d ih =>
    have h1 := ih (fun y hy => h y (by simp [hy]))
    have h2 := h x (by simp)
    rw [valueOfDigits_cons, List.length_cons, pow_succ]
    nlinarith

/-- Each digit can be read off the value. -/
theorem getD_eq_of_value {d : List Nibble} (h : ∀ x ∈ d, x.toNat ≤ 9) {k : Nat}
    (hk : k < d.length) :
    (d.getD k 0).toNat = valueOfDigits d / 10 ^ (d.length - 1 - k) % 10 := by
  induction d generalizing k with
  | nil => simp at hk
  | cons x d ih =>
    have hd : ∀ y ∈ d, y.toNat ≤ 9 := fun y hy => h y (by simp [hy])
    have hx := h x (by simp)
    have hlt := valueOfDigits_lt hd
    rw [valueOfDigits_cons]
    cases k with
    | zero =>
      simp only [List.getD_cons_zero, List.length_cons, Nat.add_sub_cancel, Nat.sub_zero]
      rw [Nat.mul_comm, Nat.mul_add_div (by positivity), Nat.div_eq_of_lt hlt]
      omega
    | succ k =>
      have hk' : k < d.length := by simpa using hk
      simp only [List.getD_cons_succ, List.length_cons]
      rw [ih hd hk', show d.length + 1 - 1 - (k + 1) = d.length - 1 - k by omega]
      obtain ⟨m, hm⟩ : ∃ m, d.length = (d.length - 1 - k) + 1 + m := ⟨k, by omega⟩
      have : x.toNat * 10 ^ d.length =
          10 ^ (d.length - 1 - k) * (10 * (x.toNat * 10 ^ m)) := by
        conv_lhs => rw [hm]
        ring
      rw [this, Nat.mul_add_div (by positivity)]
      omega

/-- What `digitsWithin` gives, where its fuel is enough. -/
theorem digitsWithin_spec : ∀ {fuel m : Nat}, m < 10 ^ (fuel + 1) →
    (∀ x ∈ digitsWithin (fuel + 1) m, x.toNat ≤ 9) ∧ valueOfDigits (digitsWithin (fuel + 1) m) = m ∧
      1 ≤ (digitsWithin (fuel + 1) m).length ∧
      (m ≠ 0 → 10 ^ ((digitsWithin (fuel + 1) m).length - 1) ≤ m) ∧
      (m = 0 → digitsWithin (fuel + 1) m = [0])
  | fuel, m, h => by
    unfold digitsWithin
    split
    · rename_i hm
      refine ⟨?_, ?_, by simp, ?_, ?_⟩
      · simp; omega
      · simp [valueOfDigits]; omega
      · intro h0; simp; omega
      · rintro rfl; rfl
    · rename_i hm
      match fuel, h with
      | 0, h => omega
      | fuel + 1, h =>
        have h' : m / 10 < 10 ^ (fuel + 1) := by
          rw [Nat.div_lt_iff_lt_mul (by norm_num), ← pow_succ]; exact h
        obtain ⟨h1, h2, h3, h4, -⟩ := digitsWithin_spec h'
        refine ⟨?_, ?_, by simp, ?_, by omega⟩
        · intro x hx
          rcases List.mem_append.mp hx with hx | hx
          · exact h1 x hx
          · have : x = BitVec.ofNat 4 (m % 10) := by simpa using hx
            subst this
            simp
            omega
        · rw [valueOfDigits_append_singleton, h2]
          simp only [BitVec.toNat_ofNat]
          omega
        · intro _
          have h5 := h4 (by omega)
          rw [List.length_append, List.length_singleton, Nat.add_sub_cancel]
          obtain ⟨n, hn⟩ : ∃ n, (digitsWithin (fuel + 1) (m / 10)).length = n + 1 :=
            ⟨_, (Nat.sub_add_cancel h3).symm⟩
          rw [hn] at h5 ⊢
          rw [Nat.add_sub_cancel] at h5
          rw [pow_succ]
          omega

theorem lt_ten_pow_log2 (m : Nat) : m < 10 ^ (m.log2 + 1) :=
  lt_of_lt_of_le Nat.lt_log2_self (Nat.pow_le_pow_left (by norm_num) _)

/-- `Digits(M)`, 42_packed_decimal_codec.md R152. -/
theorem digits_spec (m : Nat) :
    (∀ x ∈ digits m, x.toNat ≤ 9) ∧ valueOfDigits (digits m) = m ∧ 1 ≤ (digits m).length ∧
      (m ≠ 0 → 10 ^ ((digits m).length - 1) ≤ m) ∧ (m = 0 → digits m = [0]) :=
  digitsWithin_spec (lt_ten_pow_log2 m)

/-- A number has at most `k` digits when it is below `10^k`. -/
theorem digits_length_le_iff {m k : Nat} (hk : 0 < k) : (digits m).length ≤ k ↔ m < 10 ^ k := by
  obtain ⟨h1, h2, h3, h4, h5⟩ := digits_spec m
  constructor
  · intro h
    have := valueOfDigits_lt h1
    rw [h2] at this
    exact lt_of_lt_of_le this (Nat.pow_le_pow_right (by norm_num) h)
  · intro h
    rcases Nat.eq_zero_or_pos m with h0 | h0
    · rw [h5 h0]; exact hk
    · have := (Nat.pow_lt_pow_iff_right (by norm_num : 1 < 10)).mp (lt_of_le_of_lt (h4 (by omega)) h)
      omega

theorem allDigits_iff {d : List Nibble} : allDigits d = true ↔ ∀ x ∈ d, x.toNat ≤ 9 := by
  simp [allDigits]

/-- Nibble `k` of the stream of a buffer. -/
theorem getD_nibblesOf (b : List Byte) (k : Nat) : (nibblesOf b).getD k 0 = nibbleAt b k := by
  induction b generalizing k with
  | nil => unfold nibbleAt byteAt; simp [highNibble, lowNibble]
  | cons x b ih =>
    match k with
    | 0 => simp [nibbleAt, byteAt]
    | 1 => simp [nibbleAt, byteAt]
    | k + 2 =>
      rw [nibblesOf_cons, List.getD_cons_succ, List.getD_cons_succ, ih]
      simp [nibbleAt, byteAt]

end Sys2Proof.Machine
end

