-- ==== Sys2Proof/Laws/PerInstr.lean ====
section
/-! SUPPORT. Facts about every command as syntax, one lemma for each constructor. -/

/-- The fields of a command's word read back as the command's own: nothing is dropped, and the
reserved bits are zero (30_encoding.md R61). -/
def Sys2Proof.Laws.EncodeFields.Statement (i : Sys2Proof.Instr) : Prop :=
  Sys2Proof.cmdRsv (Sys2Proof.encode i) = 0 ∧
  Sys2Proof.cmdOp (Sys2Proof.encode i) = i.opcode ∧
  Sys2Proof.cmdA1P (Sys2Proof.encode i) = i.a1p ∧
  Sys2Proof.cmdA2P (Sys2Proof.encode i) = i.a2p

namespace Sys2Proof.Laws.EncodeFields

theorem txtEnc (a1p a2p : Bool) : Statement (.txtEnc a1p a2p) := by
  revert a1p a2p; unfold Statement; decide
theorem txtDec (a1p a2p : Bool) : Statement (.txtDec a1p a2p) := by
  revert a1p a2p; unfold Statement; decide
theorem hfpEnc : Statement .hfpEnc := by unfold Statement; decide
theorem hfpDec (a1p : Bool) : Statement (.hfpDec a1p) := by revert a1p; unfold Statement; decide
theorem pdEnc : Statement .pdEnc := by unfold Statement; decide
theorem pdDec : Statement .pdDec := by unfold Statement; decide
theorem zdDec : Statement .zdDec := by unfold Statement; decide
theorem i16Enc : Statement .i16Enc := by unfold Statement; decide
theorem i32Enc : Statement .i32Enc := by unfold Statement; decide
theorem i16Dec (a1p : Bool) : Statement (.i16Dec a1p) := by revert a1p; unfold Statement; decide
theorem i32Dec (a1p : Bool) : Statement (.i32Dec a1p) := by revert a1p; unfold Statement; decide

end Sys2Proof.Laws.EncodeFields
end

