-- ==== Sys2Proof/Tests/Slice0.lean ====
section
/-! SUPPORT. Tests and witnesses. Every expected result is one of the spec's vectors
(95_test_vectors.md), named beside the test, or is written out from a rule. -/

namespace Sys2Proof.Tests

open Sys2Proof Sys2Proof.Machine

/-- The state after reset with one request waiting. -/
def one (r : Request) : State := { State.reset with requests := [r] }

/-- The same with the other rounding. -/
def oneRhu (r : Request) : State :=
  { one r with params := { defaultParams with hfpRound := .rhu } }

/-- What a step answers last. -/
def reply (s : State) : Option Response :=
  match step s with
  | .next t => t.responses.getLast?
  | .fault _ => none
  | .refused _ => none

/-! ### Well-formedness -/

/-- A length without a start index has no spelling (30_encoding.md R63). -/
theorem test_wellFormed_refuses_txtEnc : (Instr.txtEnc false true).wellFormed = false := by decide

theorem test_wellFormed_refuses_txtDec : (Instr.txtDec false true).wellFormed = false := by decide

/-! ### Decoding: words written out from `CMD = {RSV, A2P, A1P, OP}` (30_encoding.md R61) and the
opcode map (R62), RSV 22 bits, A2P 1, A1P 1, OP 8 -/

theorem test_decode_txtEnc :
    decode 0b0000000000000000000000_0_0_00000001 = .ok (.txtEnc false false) := by decide

theorem test_decode_txtEnc_start :
    decode 0b0000000000000000000000_0_1_00000001 = .ok (.txtEnc true false) := by decide

theorem test_decode_txtEnc_span :
    decode 0b0000000000000000000000_1_1_00000001 = .ok (.txtEnc true true) := by decide

theorem test_decode_txtDec :
    decode 0b0000000000000000000000_0_0_00000010 = .ok (.txtDec false false) := by decide

theorem test_decode_txtDec_start :
    decode 0b0000000000000000000000_0_1_00000010 = .ok (.txtDec true false) := by decide

theorem test_decode_txtDec_span :
    decode 0b0000000000000000000000_1_1_00000010 = .ok (.txtDec true true) := by decide

theorem test_decode_hfpEnc :
    decode 0b0000000000000000000000_0_0_00010000 = .ok .hfpEnc := by decide

theorem test_decode_hfpDec :
    decode 0b0000000000000000000000_0_0_00010001 = .ok (.hfpDec false) := by decide

theorem test_decode_hfpDec_offset :
    decode 0b0000000000000000000000_0_1_00010001 = .ok (.hfpDec true) := by decide

theorem test_decode_pdEnc :
    decode 0b0000000000000000000000_0_0_00100000 = .ok .pdEnc := by decide

theorem test_decode_pdDec :
    decode 0b0000000000000000000000_0_0_00100001 = .ok .pdDec := by decide

theorem test_decode_zdDec :
    decode 0b0000000000000000000000_0_0_00100010 = .ok .zdDec := by decide

theorem test_decode_i16Enc :
    decode 0b0000000000000000000000_0_0_00110000 = .ok .i16Enc := by decide

theorem test_decode_i32Enc :
    decode 0b0000000000000000000000_0_0_00110001 = .ok .i32Enc := by decide

theorem test_decode_i16Dec :
    decode 0b0000000000000000000000_0_0_00110010 = .ok (.i16Dec false) := by decide

theorem test_decode_i16Dec_offset :
    decode 0b0000000000000000000000_0_1_00110010 = .ok (.i16Dec true) := by decide

theorem test_decode_i32Dec :
    decode 0b0000000000000000000000_0_0_00110011 = .ok (.i32Dec false) := by decide

theorem test_decode_i32Dec_offset :
    decode 0b0000000000000000000000_0_1_00110011 = .ok (.i32Dec true) := by decide

/-- V-CMD-1 to V-CMD-9. -/
theorem test_decode_rejects :
    decode 0x00000000 = .error .unassignedOpcode ∧ decode 0x00000201 = .error .presenceBits ∧
    decode 0x00000110 = .error .presenceBits ∧ decode 0x00000311 = .error .presenceBits ∧
    decode 0x00000401 = .error .reservedBits ∧ decode 0x80000031 = .error .reservedBits ∧
    decode 0x00000034 = .error .unassignedOpcode ∧ decode 0x00000120 = .error .presenceBits ∧
    decode 0x000000FF = .error .unassignedOpcode := by decide

/-- V-CMD-10: decoding comes before the absent text is seen. -/
theorem test_illegal_word_first : reply (one { cmd := 0x00000201, txtP := false }) =
    some { status := 5 } := by decide

/-! ### The text unit -/

/-- S1. -/
theorem test_txtEnc_nope :
    reply (one { cmd := 0x00000001, txtP := true, txt := [0x4E, 0x6F, 0x70, 0x65] }) =
      some { obuf := [0xD5, 0x96, 0x97, 0x85] } := by decide +kernel

/-- V-TXT-14: the bounds error comes before the unmappable scalar. -/
theorem test_txtEnc_bounds_first :
    reply (one { cmd := 0x00000101, txtP := true, txt := [0x61, 0x20AC, 0x62], idx := 5 }) =
      some { status := 1 } := by decide +kernel

/-- V-TXT-22. -/
theorem test_txtDec_slice :
    reply (one { cmd := 0x00000302, bufP := true, buf := [0xC8, 0x85, 0x93, 0x93, 0x96, 0x6B],
                 idx := 1, len := 3 }) =
      some { otxt := [0x65, 0x6C, 0x6C] } := by decide +kernel

/-- V-TXT-27. -/
theorem test_txtDec_controls :
    reply (one { cmd := 0x00000002, bufP := true,
                 buf := [0x40, 0x4B, 0x5A, 0xF0, 0xF9, 0x00, 0xFF, 0x25, 0x15, 0x0D] }) =
      some { otxt := [0x20, 0x2E, 0x21, 0x30, 0x39, 0x00, 0x9F, 0x0A, 0x85, 0x0D] } := by
  decide +kernel

/-! ### The hex-float converter -/

/-- V-HFP-26, both roundings. -/
theorem test_hfpEnc_tie :
    reply (one { cmd := 0x00000010, arg0 := 0x3F800004 }) =
      some { obuf := [0x41, 0x10, 0x00, 0x00] } ∧
    reply (oneRhu { cmd := 0x00000010, arg0 := 0x3F800004 }) =
      some { obuf := [0x41, 0x10, 0x00, 0x01] } := by decide

/-- V-HFP-18. -/
theorem test_hfpEnc_least_subnormal :
    reply (one { cmd := 0x00000010, arg0 := 0x00000001 }) =
      some { obuf := [0x1B, 0x80, 0x00, 0x00] } := by decide +kernel

/-- V-HFP-57: a tie among the subnormals. -/
theorem test_hfpDec_subnormal_tie :
    reply (one { cmd := 0x00000011, bufP := true, buf := [0x1B, 0xC0, 0x00, 0x00] }) =
      some { res := 0x00000002 } := by decide +kernel

/-- V-HFP-48. -/
theorem test_hfpDec_overflow :
    reply (one { cmd := 0x00000011, bufP := true, buf := [0x61, 0x10, 0x00, 0x00] }) =
      some { status := 2 } := by decide +kernel

/-! ### The BCD unit -/

/-- V-PD-15. -/
theorem test_pdEnc_largest :
    reply (one { cmd := 0x00000020, dmag := 79228162514264337593543950335, blen := 15 }) =
      some { obuf := [0x79, 0x22, 0x81, 0x62, 0x51, 0x42, 0x64, 0x33, 0x75, 0x93, 0x54, 0x39,
                      0x50, 0x33, 0x5C] } := by decide +kernel

/-- V-PD-5: the sign of a negative zero. -/
theorem test_pdEnc_negative_zero :
    reply (one { cmd := 0x00000020, dneg := true, dmag := 0, blen := 1 }) =
      some { obuf := [0x0C] } := by decide

/-- V-PD-19. -/
theorem test_pdDec_negative :
    reply (one { cmd := 0x00000021, bufP := true, buf := [0x00, 0x04, 0x2D], blen := 3,
                 scale := 3 }) =
      some { rneg := true, rmag := 42, rscale := 3 } := by decide

/-- V-PD-29: `2^96`. -/
theorem test_pdDec_overflow :
    reply (one { cmd := 0x00000021, bufP := true, blen := 15,
                 buf := [0x79, 0x22, 0x81, 0x62, 0x51, 0x42, 0x64, 0x33, 0x75, 0x93, 0x54, 0x39,
                         0x50, 0x33, 0x6C] }) =
      some { status := 2 } := by decide +kernel

/-- V-ZD-4: only the final zone counts. -/
theorem test_zdDec_zones :
    reply (one { cmd := 0x00000022, bufP := true, buf := [0x01, 0x32, 0xD3] }) =
      some { rneg := true, rmag := 123 } := by decide

/-- V-ZD-2. -/
theorem test_zdDec_extra_positive :
    reply (one { cmd := 0x00000022, bufP := true, buf := [0xF1, 0xF2, 0xF3] }) =
      some { rmag := 123 } := by decide

/-! ### The integer unit -/

/-- V-INT-3: the upper half of `ARG0` is ignored. -/
theorem test_i16Enc_low_half :
    reply (one { cmd := 0x00000030, arg0 := 0x00018000 }) = some { obuf := [0x80, 0x00] } := by
  decide

/-- V-INT-4. -/
theorem test_i32Enc_order :
    reply (one { cmd := 0x00000031, arg0 := 0x10FF020D }) =
      some { obuf := [0x10, 0xFF, 0x02, 0x0D] } := by decide

/-- V-INT-11: an offset and the sign. -/
theorem test_i16Dec_offset :
    reply (one { cmd := 0x00000132, bufP := true, buf := [0xAB, 0xCD, 0xEF], idx := 1 }) =
      some { res := 0xFFFFCDEF } := by decide

/-- V-INT-15: a negative offset. -/
theorem test_i16Dec_negative_offset :
    reply (one { cmd := 0x00000132, bufP := true, buf := [0xAB, 0xCD], idx := 0xFFFFFFFF }) =
      some { status := 1 } := by decide

/-- V-INT-17 and V-INT-18: the last legal offset and the next one. -/
theorem test_i32Dec_last_offset :
    reply (one { cmd := 0x00000133, bufP := true, buf := [0x00, 0x10, 0xFF, 0x02, 0x0D, 0x99],
                 idx := 2 }) = some { res := 0xFF020D99 } ∧
    reply (one { cmd := 0x00000133, bufP := true, buf := [0x00, 0x10, 0xFF, 0x02, 0x0D, 0x99],
                 idx := 3 }) = some { status := 1 } := by decide

/-! ### The host's moves and the assembler -/

/-- A word placed where the step reads its command is the one that runs: I16_ENC of a zero `ARG0`
(43_integer_codec.md R181). -/
theorem test_withFetchWord_runs :
    reply (State.reset.withFetchWord 32 0x00000030) = some { obuf := [0x00, 0x00] } := by decide

/-- The reset signal drops the waiting request (70_reset_and_hazards.md R232). -/
theorem test_resetSignal_drops :
    (resetSignal (issueProgram [{ cmd := 0x00000030 }] State.reset)).requests = [] := by decide

/-- S9: `PD_ENCS 12345.6789, 4, 5` is `PD_ENC 123456789, 5`. -/
theorem test_assemble_pdEncs :
    assemble (.pdEncs ⟨false, 123456789, 4⟩ 4 5) =
      some { cmd := 0x00000020, dmag := 123456789, blen := 5 } := by decide

/-- S4: `HFP_ENC 64.125488` has `ARG0` `0x42804040`. -/
theorem test_assemble_hfpEnc :
    assemble (.hfpEnc (.decimal ⟨false, 64125488, 6⟩)) =
      some { cmd := 0x00000010, arg0 := 0x42804040 } := by decide

/-- V-TXT-8: `TXT_ENC "Nope", -1` has `IDX` `0xFFFFFFFF`. -/
theorem test_assemble_txtEnc :
    assemble (.txtEnc (some [0x4E, 0x6F, 0x70, 0x65]) (.suffix (-1))) =
      some { cmd := 0x00000101, txtP := true, txt := [0x4E, 0x6F, 0x70, 0x65],
             idx := 0xFFFFFFFF } := by decide

/-- P1, steps 1 and 2, as the text of a program. -/
theorem test_assembleSource :
    assembleSource "I16_ENC 1892\nI32_ENC 287116045\n".toList =
      some [{ cmd := 0x00000030, arg0 := 0x00000764 },
            { cmd := 0x00000031, arg0 := 0x111D0B0D }] := by decide +kernel

/-- A separator inside a string literal belongs to the text (30_encoding.md R73). -/
theorem test_assembleText_string :
    assembleText "TXT_ENC \"Hello,\"".toList =
      some { cmd := 0x00000001, txtP := true,
             txt := [0x48, 0x65, 0x6C, 0x6C, 0x6F, 0x2C] } := by decide +kernel

/-- A hexadecimal bit pattern, and a letter that is no digit of its base (30_encoding.md R73). -/
theorem test_assembleText_digits :
    assembleText "HFP_ENC 0x7FC00000".toList = some { cmd := 0x00000010, arg0 := 0x7FC00000 } ∧
    assembleText "I16_ENC 1A".toList = none ∧ assembleText "I16_ENC -".toList = none := by
  decide +kernel

/-! ### Witnesses: for every statement with premises, states and operands that meet them, one for each
clause, at the ends of the ranges -/

/-- `DecodeAndEncodeAgree`. -/
theorem witness_decode_encode :
    (Instr.txtEnc true true).wellFormed = true ∧ decode 0x00000301 = .ok (.txtEnc true true) := by
  decide

/-- `IllegalWordsAreAnsweredIllegalCommand`, clause by clause. -/
theorem witness_illegal_words :
    2 ^ 10 ≤ (0x00000401 : Word).toNat ∧
    (0x00000034 : Word).toNat % 2 ^ 8 ∉
      [0x01, 0x02, 0x10, 0x11, 0x20, 0x21, 0x22, 0x30, 0x31, 0x32, 0x33] ∧
    ((0x00000201 : Word).toNat % 2 ^ 8 ∈ [0x01, 0x02] ∧
      (0x00000201 : Word).getLsbD 8 = false ∧ (0x00000201 : Word).getLsbD 9 = true) ∧
    ((0x00000311 : Word).toNat % 2 ^ 8 ∈ [0x11, 0x32, 0x33] ∧
      (0x00000311 : Word).getLsbD 9 = true) ∧
    ((0x00000110 : Word).toNat % 2 ^ 8 ∈ [0x10, 0x20, 0x21, 0x22, 0x30, 0x31] ∧
      (0x00000110 : Word).getLsbD 8 = true) := by decide

/-- `StepRunsTheDecodedCommand`, clause by clause. -/
theorem witness_step_runs :
    (one { cmd := 0x00000030 }).requests = [{ cmd := 0x00000030 }] ∧
    decode 0x00000030 = .ok .i16Enc ∧ State.reset.requests = [] ∧
    decodeTableWord 32 0x00000301 = some (.txtEnc true true) := by decide

/-- `NoStepStops`, and every statement that asks for a waiting request alone:
`ResponseIsAFunctionOfTheRequest`, `ErrorResponsesAreBare`, `CommandsWriteOnlyTheirFields`,
`CommandsGiveOnlyTheirStatusCodes`, `I16EncIsBigEndian`, `I32EncIsBigEndian`. -/
theorem witness_waiting :
    (one { cmd := 0x00000030 }).requests = [{ cmd := 0x00000030 }] ∧
    (one { cmd := 0x00000030 }).requests ≠ [] ∧ State.reset.requests = [] := by decide

/-- `RunAnswersEachRequestInOrder`. -/
theorem witness_run :
    (issueProgram [{ cmd := 0x00000030 }, { cmd := 0x00000201 }] State.reset).requests =
      [{ cmd := 0x00000030 }, { cmd := 0x00000201 }] := by decide

/-- `ErrorsLeaveNoTrace`. -/
theorem witness_error_then_command :
    ∃ (s t : State) (q : Response),
      s.requests = [{ cmd := 0x00000011 }, { cmd := 0x00000030 }] ∧ step s = .next t ∧
      t.responses = s.responses ++ [q] ∧ q.status ≠ 0 ∧
      (one { cmd := 0x00000030 }).textRom = s.textRom ∧
      (one { cmd := 0x00000030 }).params = s.params :=
  ⟨issueProgram [{ cmd := 0x00000011 }, { cmd := 0x00000030 }] State.reset, _, { status := 1 }, rfl,
    rfl, rfl, by decide, rfl, rfl⟩

/-- A state with one request a caller can spell meets the invariant. -/
theorem inv_one {r : Request} (h : RequestOk r) : Inv (one r) where
  rom := defaultTextRom_admissible
  params := defaultParams_admissible
  requests x hx := by
    rw [List.mem_singleton.mp hx]
    exact h
  responses q hq := absurd hq (List.not_mem_nil (a := q))

/-- `EveryStepKeepsTheInvariant`, clause by clause. -/
theorem witness_invariant_kept :
    ∃ (s t : State) (r : Request), Inv s ∧ step s = .next t ∧ RequestOk r :=
  ⟨one { cmd := 0x00000030 }, _, { cmd := 0x00000030 }, inv_one ⟨by decide, by decide⟩, rfl,
    ⟨by decide, by decide⟩⟩

/-- `TableAndParametersNeverChange`. -/
theorem witness_next_states :
    ∃ t u : State, exec .i16Enc (one { cmd := 0x00000030 }) = .next t ∧
      step (one { cmd := 0x00000030 }) = .next u := ⟨_, _, rfl, rfl⟩

/-- `ResetLosesUnansweredRequests`. -/
theorem witness_after_reset_signal :
    ∃ u : State, u.textRom = State.reset.textRom ∧ u.params = State.reset.params ∧
      u.requests = [{ cmd := 0x00000030 }] := ⟨one { cmd := 0x00000030 }, rfl, rfl, rfl⟩

/-- `CommandsReadOnlyTheirFields`: requests that differ in a half of `ARG0` that is not read, and in
bytes that are absent. -/
theorem witness_same_reads :
    SameReads .i16Enc { cmd := 0x00000030, arg0 := 0x00018000 }
      { cmd := 0x00000030, arg0 := 0xFFFF8000 } ∧
    SameReads (.txtDec true false) { cmd := 0x00000102, buf := [0xC1], idx := 1, len := 2 }
      { cmd := 0x00000102, buf := [], idx := 1, len := 3 } := by
  refine ⟨by unfold SameReads; decide, ?_⟩
  simp [SameReads]

/-- `OnlyTextCommandsReadTheTable`: states with other tables, and with other parameters. -/
theorem witness_tables_and_parameters :
    (∃ s u : State, s.requests = [{ cmd := 0x00000010 }] ∧ u.requests = [{ cmd := 0x00000010 }] ∧
      isTextCommand .hfpEnc = false ∧ s.params = u.params ∧ s.textRom ≠ u.textRom) ∧
    (∃ s u : State, s.requests = [{ cmd := 0x00000001 }] ∧ u.requests = [{ cmd := 0x00000001 }] ∧
      isTextCommand (.txtEnc false false) = true ∧ s.textRom = u.textRom ∧ s.params ≠ u.params) := by
  refine ⟨⟨one { cmd := 0x00000010 },
      { one { cmd := 0x00000010 } with textRom := Vector.replicate 256 0 }, rfl, rfl, rfl, rfl, ?_⟩,
    ⟨one { cmd := 0x00000001 }, oneRhu { cmd := 0x00000001 }, rfl, rfl, rfl, rfl, by decide⟩⟩
  intro h
  have h1 : romRead defaultTextRom 0x01 = romRead (Vector.replicate 256 0) 0x01 :=
    congrArg (romRead · 0x01) h
  have h2 : romRead defaultTextRom 0x01 = 0x01 := by decide +kernel
  rw [h2] at h1
  simp [romRead] at h1

/-- `RomInverseIsTheUniqueIndex`. -/
theorem witness_admissible_table : RomAdmissible defaultTextRom := defaultTextRom_admissible

theorem small_of_all {l : List Scalar} (h : l.all (fun c => c.toNat < 256) = true) :
    ∀ c ∈ l, c.toNat < 256 := by simpa using h

/-- What a step answers, from the result of the request. -/
theorem step_one {r : Request} {q : Response}
    (h : finish (requestResult defaultTextRom defaultParams r) = q) :
    step (one r) = .next (answered (one r) [] q) := by
  rw [← h]
  exact step_cons rfl

/-- A scalar above the image of the default table is unmappable in it. -/
theorem unmappable_one {r : Request} {c : Scalar} (h : 256 ≤ c.toNat) :
    ∀ i, romRead (one r).textRom i ≠ c := by
  intro i hi
  have := defaultRom_small i
  rw [show romRead defaultTextRom i = c from hi] at this
  omega

/-- `TxtEncMapsTheSelectedScalars`, clause by clause: absent, start beyond the end, an unmappable
scalar inside the slice, and the slice that ends where the text ends. -/
theorem witness_txtEnc :
    (∃ r : Request, (one r).requests = [r] ∧ r.txtP = false) ∧
    (∃ r : Request, (one r).requests = [r] ∧ r.txtP = true ∧
      ¬ ∃ st n, SliceIs r.txt.length true r.idx false r.len st n) ∧
    (∃ r : Request, (one r).requests = [r] ∧ r.txtP = true ∧
      SliceIs r.txt.length false r.idx false r.len 0 3 ∧
      ∃ c ∈ (r.txt.drop 0).take 3, ∀ i, romRead (one r).textRom i ≠ c) ∧
    (∃ r : Request, (one r).requests = [r] ∧ r.txtP = true ∧
      SliceIs r.txt.length true r.idx true r.len 3 1 ∧
      ∀ c ∈ (r.txt.drop 3).take 1, ∃ i, romRead (one r).textRom i = c) := by
  refine ⟨⟨{ cmd := 0x00000001 }, rfl, rfl⟩,
    ⟨{ cmd := 0x00000101, txtP := true, txt := [0x4E, 0x6F, 0x70, 0x65], idx := 5 }, rfl, rfl, ?_⟩,
    ⟨{ cmd := 0x00000001, txtP := true, txt := [0x61, 0x20AC, 0x62] }, rfl, rfl, ?_, 0x20AC,
      by decide, unmappable_one (by decide)⟩,
    ⟨{ cmd := 0x00000301, txtP := true, txt := [0x4E, 0x6F, 0x70, 0x65], idx := 3, len := 1 }, rfl,
      rfl, ?_, fun c hc => ?_⟩⟩
  · rintro ⟨st, n, h1, -, h3⟩
    simp at h1 h3
    omega
  · exact ⟨by decide, by decide, by decide⟩
  · exact ⟨by decide, by decide, by decide⟩
  · exact defaultRom_onto (small_of_all (by decide) c hc)

/-- `TxtDecReadsTheSelectedBytes`, clause by clause. -/
theorem witness_txtDec :
    (∃ r : Request, (one r).requests = [r] ∧ r.bufP = false) ∧
    (∃ r : Request, (one r).requests = [r] ∧ r.bufP = true ∧
      ¬ ∃ st n, SliceIs r.buf.length true r.idx false r.len st n) ∧
    (∃ r : Request, (one r).requests = [r] ∧ r.bufP = true ∧
      SliceIs r.buf.length true r.idx true r.len 1 0) := by
  refine ⟨⟨{ cmd := 0x00000002 }, rfl, rfl⟩,
    ⟨{ cmd := 0x00000102, bufP := true, buf := [0xC1], idx := 0xFFFFFFFF }, rfl, rfl, ?_⟩,
    ⟨{ cmd := 0x00000302, bufP := true, buf := [0xC1], idx := 1, len := 0 }, rfl, rfl,
      by decide, by decide, by decide⟩⟩
  rintro ⟨st, n, h1, -, -⟩
  simp at h1

/-- `NonScalarsAreUnmappableInEveryTable`: both kinds of element that are no scalar value. -/
theorem witness_non_scalars :
    ∃ r q : Request, RomAdmissible (one r).textRom ∧ (one r).requests = [r] ∧ r.txtP = true ∧
      SliceIs r.txt.length false r.idx false r.len 0 2 ∧
      (0xD800 : Scalar) ∈ (r.txt.drop 0).take 2 ∧ (0xDFFF : Scalar) ∈ (r.txt.drop 0).take 2 ∧
      (one q).requests = [q] ∧ q.txtP = true ∧
      SliceIs q.txt.length false q.idx false q.len 0 1 ∧
      (0x110000 : Scalar) ∈ (q.txt.drop 0).take 1 ∧ 0x10FFFF < (0x110000 : Scalar).toNat :=
  ⟨{ cmd := 0x00000001, txtP := true, txt := [0xD800, 0xDFFF] },
    { cmd := 0x00000001, txtP := true, txt := [0x110000] }, defaultTextRom_admissible, rfl, rfl,
    ⟨by decide, by decide, by decide⟩, by decide, by decide, rfl, rfl,
    ⟨by decide, by decide, by decide⟩, by decide, by decide⟩

/-- `TextRoundTrips`: a text and its bytes, both ways. -/
theorem witness_text_round_trips :
    ∃ r q : Request, RomAdmissible (one r).textRom ∧ (one r).requests = [r] ∧
      r.cmd = 0x00000001 ∧ r.txtP = true ∧
      (∀ c ∈ r.txt, ∃ i, romRead (one r).textRom i = c) ∧ (one q).textRom = (one r).textRom ∧
      (one q).requests = [q] ∧ q.cmd = 0x00000002 ∧ q.bufP = true ∧
      step (one r) = .next (answered (one r) [] { obuf := q.buf }) ∧
      step (one q) = .next (answered (one q) [] { otxt := r.txt }) := by
  exact ⟨{ cmd := 0x00000001, txtP := true, txt := [0x48, 0xE9] },
    { cmd := 0x00000002, bufP := true, buf := [0xC8, 0x51] }, defaultTextRom_admissible, rfl, rfl,
    rfl, fun c hc => defaultRom_onto (small_of_all (by decide) c hc), rfl, rfl, rfl, rfl,
    step_one (by decide +kernel), step_one (by decide +kernel)⟩

/-- `SlicingCommutesWithTheTextCodec`: a slice that ends where its operand ends. -/
theorem witness_slicing :
    (∃ r r' : Request, (one r).requests = [r] ∧ r.cmd = 0x00000001 ∧ r'.cmd = 0x00000301 ∧
      r'.txtP = r.txtP ∧ r'.txt = r.txt ∧
      step (one r) = .next (answered (one r) [] { obuf := [0xC8, 0x51] }) ∧
      r'.idx.toInt = (1 : Nat) ∧ r'.len.toInt = (1 : Nat) ∧ 1 + 1 ≤ r.txt.length) ∧
    (∃ r r' : Request, (one r).requests = [r] ∧ r.cmd = 0x00000002 ∧ r'.cmd = 0x00000302 ∧
      r'.bufP = r.bufP ∧ r'.buf = r.buf ∧
      step (one r) = .next (answered (one r) [] { otxt := [0x48, 0xE9] }) ∧
      r'.idx.toInt = (1 : Nat) ∧ r'.len.toInt = (1 : Nat) ∧ 1 + 1 ≤ r.buf.length) := by
  exact ⟨⟨{ cmd := 0x00000001, txtP := true, txt := [0x48, 0xE9] },
      { cmd := 0x00000301, txtP := true, txt := [0x48, 0xE9], idx := 1, len := 1 },
      rfl, rfl, rfl, rfl, rfl, step_one (by decide +kernel), by decide, by decide, by decide⟩,
    ⟨{ cmd := 0x00000002, bufP := true, buf := [0xC8, 0x51] },
      { cmd := 0x00000302, bufP := true, buf := [0xC8, 0x51], idx := 1, len := 1 },
      rfl, rfl, rfl, rfl, rfl, step_one (by decide +kernel), by decide, by decide, by decide⟩⟩

/-- `RoundIntRoundsToTheNearest`, clause by clause: `0`, `2/3` and `5/2`. -/
theorem witness_roundInt :
    (((0 : Nat) : ℚ) / (1 : Nat) - ⌊((0 : Nat) : ℚ) / (1 : Nat)⌋ < 1 / 2) ∧
    (1 / 2 < ((2 : Nat) : ℚ) / (3 : Nat) - ⌊((2 : Nat) : ℚ) / (3 : Nat)⌋) ∧
    (((5 : Nat) : ℚ) / (2 : Nat) - ⌊((5 : Nat) : ℚ) / (2 : Nat)⌋ = 1 / 2) := by
  decide +kernel

/-- The premises of `RoundF32RoundsOnce` that every clause shares. -/
def InBinade (num den : Nat) (t : ℤ) : Prop :=
  0 < num ∧ 0 < den ∧ (2 : ℚ) ^ t ≤ (num : ℚ) / den ∧ (num : ℚ) / den < 2 ^ (t + 1)

/-- The rounded significand of `RoundF32RoundsOnce`. -/
def significandAt (num den : Nat) (t : ℤ) : ℤ :=
  roundRat .rne ((num : ℚ) / den * 2 ^ (23 - t))

/-- `RoundF32RoundsOnce`, the clauses that overflow: `2^128`, and `2^128 - 1` rounded up to it. -/
theorem witness_roundF32_overflow :
    (InBinade (2 ^ 128) 1 128 ∧ significandAt (2 ^ 128) 1 128 < 2 ^ 24) ∧
    (InBinade (2 ^ 128 - 1) 1 127 ∧ significandAt (2 ^ 128 - 1) 1 127 = 2 ^ 24) := by
  unfold InBinade significandAt
  decide +kernel

/-- `RoundF32RoundsOnce`, the clauses of the normal numbers, `2^-126` and `2^25 - 1` rounded up to
`2^25`, and the clause of the subnormal ones, `2^-127`. -/
theorem witness_roundF32_finite :
    (InBinade 1 (2 ^ 126) (-126) ∧ significandAt 1 (2 ^ 126) (-126) < 2 ^ 24) ∧
    (InBinade (2 ^ 25 - 1) 1 24 ∧ significandAt (2 ^ 25 - 1) 1 24 = 2 ^ 24) ∧
    InBinade 1 (2 ^ 127) (-127) := by
  unfold InBinade significandAt
  decide +kernel

/-- `HfpEncRoundsToSixHexDigits`, clause by clause: a NaN, an infinity, both zeros, the least
subnormal and the greatest normal number with their exponents. -/
theorem witness_hfpEnc :
    IsNaN 0x7F800001 ∧ IsInfinity 0xFF800000 ∧ IsZero 0x00000000 ∧ IsZero 0x80000000 ∧
    (IsSubnormal 0x00000001 ∧ (16 : ℚ) ^ ((-37 : ℤ) - 1) ≤ |f32Value 0x00000001| ∧
      |f32Value 0x00000001| < 16 ^ (-37 : ℤ)) ∧
    (IsNormal 0x7F7FFFFF ∧ (16 : ℚ) ^ ((32 : ℤ) - 1) ≤ |f32Value 0x7F7FFFFF| ∧
      |f32Value 0x7F7FFFFF| < 16 ^ (32 : ℤ)) := by decide +kernel

/-- `HfpEncOutputsAreNormalized`: an input that is rounded, `1 + 2^-23`, whose quotient is no
integer. -/
theorem witness_hfpEnc_inexact :
    IsNormal 0x3F800001 ∧
    exec .hfpEnc (one { cmd := 0x00000010, arg0 := 0x3F800001 }) =
      .next (answered (one { cmd := 0x00000010, arg0 := 0x3F800001 }) []
        { obuf := [0x41, 0x10, 0x00, 0x00] }) ∧
    ∀ n : ℤ, |f32Value 0x3F800001| / 16 ^ ((hfpExponent 0x41 : ℤ) - 64) * 16 ^ 6 ≠ n := by
  refine ⟨by decide, ?_, fun n h => ?_⟩
  · rw [exec_cons rfl]
    rfl
  · have hq : |f32Value 0x3F800001| / 16 ^ ((hfpExponent 0x41 : ℤ) - 64) * 16 ^ 6 =
        8388609 / 8 := by decide +kernel
    rw [hq, div_eq_iff (by norm_num)] at h
    have : (8388609 : ℤ) = n * 8 := by exact_mod_cast h
    omega

/-- `HfpDecReconstructsTheValue` and `HfpDecRangeOfNormalizedWords`: no operand, too few bytes, and
the ends of the ranges of the value clauses. -/
theorem witness_hfpDec :
    (∃ r : Request, (one r).requests = [r] ∧ r.bufP = false) ∧
    (∃ r : Request, (one r).requests = [r] ∧ r.bufP = true ∧
      ¬ ∃ o, OffsetIs r.buf.length true r.idx 4 o) ∧
    (∃ r : Request, (one r).requests = [r] ∧ r.bufP = true ∧
      OffsetIs r.buf.length true r.idx 4 1 ∧
      (r.buf.drop 1).take 4 = [0x41, 0x10, 0x00, 0x00]) ∧
    hfpMantissa 0x00 0x00 0x00 = 0 ∧
    (2 : ℚ) ^ 128 ≤ |hfpValue 0x61 0x10 0x00 0x00| ∧
    |hfpValue 0xE0 0xFF 0xFF 0xFF| < 2 ^ 128 ∧
    (2 : ℚ) ^ (-126 : ℤ) ≤ |hfpValue 0x21 0x40 0x00 0x00| ∧
    (hfpMantissa 0x3F 0xFF 0xFF ≠ 0 ∧ |hfpValue 0x21 0x3F 0xFF 0xFF| < (2 : ℚ) ^ (-126 : ℤ)) ∧
    IsNormalized 0x10 := by
  refine ⟨⟨{ cmd := 0x00000011 }, rfl, rfl⟩,
    ⟨{ cmd := 0x00000111, bufP := true, buf := [0x41, 0x10, 0x00, 0x00], idx := 1 }, rfl, rfl, ?_⟩,
    ⟨{ cmd := 0x00000111, bufP := true, buf := [0x99, 0x41, 0x10, 0x00, 0x00], idx := 1 }, rfl, rfl,
      ⟨by decide, by decide⟩, by decide⟩, by decide +kernel⟩
  rintro ⟨o, h1, h2⟩
  simp at h1 h2
  omega

/-- `HfpRoundTripPrecision`: the encode and the decode of its bytes, for `0.1` and for `-0.0`. -/
theorem witness_hfp_precision :
    (∃ r r' : Request, (one r).requests = [r] ∧ r.cmd = 0x00000010 ∧ IsNormal r.arg0 ∧
      |f32Value r.arg0| ≤ 100 ∧ (one r').requests = [r'] ∧ r'.cmd = 0x00000011 ∧ r'.bufP = true ∧
      reply (one r) = some { obuf := r'.buf }) ∧
    (∃ r r' : Request, (one r).requests = [r] ∧ r.cmd = 0x00000010 ∧ IsZero r.arg0 ∧
      (one r').requests = [r'] ∧ r'.cmd = 0x00000011 ∧ r'.bufP = true ∧
      reply (one r) = some { obuf := r'.buf }) :=
  ⟨⟨{ cmd := 0x00000010, arg0 := 0x3DCCCCCD },
      { cmd := 0x00000011, bufP := true, buf := [0x40, 0x19, 0x99, 0x9A] }, rfl, rfl,
      by decide +kernel⟩,
    ⟨{ cmd := 0x00000010, arg0 := 0x80000000 },
      { cmd := 0x00000011, bufP := true, buf := [0x00, 0x00, 0x00, 0x00] }, rfl, rfl,
      by decide +kernel⟩⟩

/-- `HfpExactRoundTrips`: `1.0` is exact in HFP, and the words at both ends of the second clause. The
`-0.0` of the third clause stands above. -/
theorem witness_hfp_exact :
    (IsNormal 0x3F800000 ∧ (16 : ℚ) ^ ((1 : ℤ) - 1) ≤ |f32Value 0x3F800000| ∧
      |f32Value 0x3F800000| < 16 ^ (1 : ℤ) ∧
      |f32Value 0x3F800000| / 16 ^ (1 : ℤ) * 16 ^ 6 = ((2 ^ 20 : ℤ) : ℚ)) ∧
    (IsNormalized 0x10 ∧ 33 < hfpExponent 0x22 ∧ hfpExponent 0x22 < 97) ∧
    (IsNormalized 0xFF ∧ 33 < hfpExponent 0xE0 ∧ hfpExponent 0xE0 < 97) := by decide +kernel

/-- `PdEncWritesDigitsThenSign`, clause by clause: `12` does not fit one byte, `0` none, `123` fits
two. -/
theorem witness_pdEnc :
    max 1 (Nat.digits 10 12).length + 1 > 2 * (1 : Byte).toNat ∧
    max 1 (Nat.digits 10 0).length + 1 > 2 * (0 : Byte).toNat ∧
    max 1 (Nat.digits 10 123).length + 1 ≤ 2 * (2 : Byte).toNat := by simp

/-- `PdDecReadsDigitsThenSign`: no operand, no length, too few bytes, a sign and a digit that are
none. -/
theorem witness_pdDec_rejects :
    (∃ r : Request, (one r).requests = [r] ∧ r.bufP = false) ∧
    (∃ r : Request, (one r).requests = [r] ∧ r.blen.toNat = 0) ∧
    (∃ r : Request, (one r).requests = [r] ∧ r.buf.length < r.blen.toNat) ∧
    (∃ r : Request, (one r).requests = [r] ∧
      nibbleAt r.buf (2 * r.blen.toNat - 1) ∉ (one r).params.pdPosAccept ∧
      nibbleAt r.buf (2 * r.blen.toNat - 1) ∉ (one r).params.pdNegAccept) ∧
    (∃ r : Request, (one r).requests = [r] ∧
      ∃ k < 2 * r.blen.toNat - 1, 9 < (nibbleAt r.buf k).toNat) :=
  ⟨⟨{ cmd := 0x00000021 }, rfl, rfl⟩, ⟨{ cmd := 0x00000021 }, rfl, rfl⟩,
    ⟨{ cmd := 0x00000021, bufP := true, buf := [0x1C], blen := 2 }, rfl, by decide⟩,
    ⟨{ cmd := 0x00000021, bufP := true, buf := [0x1F], blen := 1 }, rfl, by decide⟩,
    ⟨{ cmd := 0x00000021, bufP := true, buf := [0xA1, 0x2C], blen := 2 }, rfl, 0, by decide⟩⟩

/-- `PdDecReadsDigitsThenSign`: the coefficients `2^96 - 1` and `2^96`, on both signs. -/
theorem witness_pdDec_accepts :
    (∃ r : Request, (one r).requests = [r] ∧ r.bufP = true ∧ 0 < r.blen.toNat ∧
      r.blen.toNat ≤ r.buf.length ∧
      nibbleAt r.buf (2 * r.blen.toNat - 1) ∈ (one r).params.pdPosAccept ∧
      (∀ k < 2 * r.blen.toNat - 1, (nibbleAt r.buf k).toNat ≤ 9) ∧
      ∑ k ∈ Finset.range (2 * r.blen.toNat - 1),
        (nibbleAt r.buf k).toNat * 10 ^ (2 * r.blen.toNat - 2 - k) = 2 ^ 96 - 1) ∧
    (∃ r : Request, (one r).requests = [r] ∧ r.bufP = true ∧ 0 < r.blen.toNat ∧
      r.blen.toNat ≤ r.buf.length ∧
      nibbleAt r.buf (2 * r.blen.toNat - 1) ∈ (one r).params.pdNegAccept ∧
      (∀ k < 2 * r.blen.toNat - 1, (nibbleAt r.buf k).toNat ≤ 9) ∧
      ∑ k ∈ Finset.range (2 * r.blen.toNat - 1),
        (nibbleAt r.buf k).toNat * 10 ^ (2 * r.blen.toNat - 2 - k) = 2 ^ 96) :=
  ⟨⟨{ cmd := 0x00000021, bufP := true, blen := 15,
        buf := [0x79, 0x22, 0x81, 0x62, 0x51, 0x42, 0x64, 0x33, 0x75, 0x93, 0x54, 0x39, 0x50, 0x33,
          0x5C] }, rfl, by decide +kernel⟩,
    ⟨{ cmd := 0x00000021, bufP := true, blen := 15,
        buf := [0x79, 0x22, 0x81, 0x62, 0x51, 0x42, 0x64, 0x33, 0x75, 0x93, 0x54, 0x39, 0x50, 0x33,
          0x6D] }, rfl, by decide +kernel⟩⟩

/-- `ZdDecReadsDigitsAndFinalZone`: no operand, no bytes, a final zone and a digit that are none. -/
theorem witness_zdDec_rejects :
    (∃ r : Request, (one r).requests = [r] ∧ r.bufP = false) ∧
    (∃ r : Request, (one r).requests = [r] ∧ r.buf.length = 0) ∧
    (∃ r : Request, (one r).requests = [r] ∧
      highNibble (byteAt r.buf (r.buf.length - 1)) ∉ (one r).params.pdNegAccept ∧
      highNibble (byteAt r.buf (r.buf.length - 1)) ∉ (one r).params.pdPosAccept ∧
      highNibble (byteAt r.buf (r.buf.length - 1)) ∉ (one r).params.zdPosExtra) ∧
    (∃ r : Request, (one r).requests = [r] ∧
      ∃ k < r.buf.length, 9 < (lowNibble (byteAt r.buf k)).toNat) :=
  ⟨⟨{ cmd := 0x00000022 }, rfl, rfl⟩, ⟨{ cmd := 0x00000022, bufP := true }, rfl, rfl⟩,
    ⟨{ cmd := 0x00000022, bufP := true, buf := [0xF1, 0xF2, 0xA3] }, rfl, by decide⟩,
    ⟨{ cmd := 0x00000022, bufP := true, buf := [0xF1, 0xFA, 0xC3] }, rfl, 1, by decide⟩⟩

/-- `ZdDecReadsDigitsAndFinalZone`: 28 and 29 nines, on both sides of `2^96`. -/
theorem witness_zdDec_accepts :
    (∃ r : Request, (one r).requests = [r] ∧ r.bufP = true ∧ 0 < r.buf.length ∧
      highNibble (byteAt r.buf (r.buf.length - 1)) ∈ (one r).params.zdPosExtra ∧
      (∀ k < r.buf.length, (lowNibble (byteAt r.buf k)).toNat ≤ 9) ∧
      ∑ k ∈ Finset.range r.buf.length,
        (lowNibble (byteAt r.buf k)).toNat * 10 ^ (r.buf.length - 1 - k) < 2 ^ 96) ∧
    (∃ r : Request, (one r).requests = [r] ∧ r.bufP = true ∧ 0 < r.buf.length ∧
      highNibble (byteAt r.buf (r.buf.length - 1)) ∈ (one r).params.zdPosExtra ∧
      (∀ k < r.buf.length, (lowNibble (byteAt r.buf k)).toNat ≤ 9) ∧
      2 ^ 96 ≤ ∑ k ∈ Finset.range r.buf.length,
        (lowNibble (byteAt r.buf k)).toNat * 10 ^ (r.buf.length - 1 - k)) :=
  ⟨⟨{ cmd := 0x00000022, bufP := true, buf := List.replicate 28 0xF9 }, rfl, by decide +kernel⟩,
    ⟨{ cmd := 0x00000022, bufP := true, buf := List.replicate 29 0xF9 }, rfl, by decide +kernel⟩⟩

/-- `PackedRoundTrip`: `-123` in two bytes, and the decode of the bytes it makes. -/
theorem witness_packed_round_trip :
    ∃ r r' : Request, (one r).params.Admissible ∧ (one r).requests = [r] ∧ r.cmd = 0x00000020 ∧
      max 1 (Nat.digits 10 r.dmag.toNat).length + 1 ≤ 2 * r.blen.toNat ∧
      step (one r) = .next (answered (one r) [] { obuf := r'.buf }) ∧
      (one r').params = (one r).params ∧ (one r').requests = [r'] ∧ r'.cmd = 0x00000021 ∧
      r'.bufP = true ∧ r'.blen = r.blen := by
  refine ⟨{ cmd := 0x00000020, dneg := true, dmag := 123, blen := 2 },
    { cmd := 0x00000021, bufP := true, buf := [0x12, 0x3D], blen := 2 }, defaultParams_admissible,
    rfl, rfl, ?_, step_one (by decide), rfl, rfl, rfl, rfl, rfl⟩
  simp

/-- `ZonedAndPackedAgree`: V-ZD-14, and the same packed field with padding. -/
theorem witness_zoned_and_packed :
    ∃ p p' z : Request, (one p).params.Admissible ∧ (one z).params = (one p).params ∧
      (one p).requests = [p] ∧ (one p').requests = [p'] ∧ (one z).requests = [z] ∧
      p.cmd = 0x00000021 ∧ p'.cmd = 0x00000021 ∧ z.cmd = 0x00000022 ∧ p.bufP = true ∧
      p'.bufP = true ∧ z.bufP = true ∧ (0xD : Nibble) ∈ (one p).params.pdNegAccept ∧
      nibblesOf p.buf = List.replicate 0 0 ++ [1, 2, 3] ++ [0xD] ∧ p.blen.toNat = p.buf.length ∧
      nibblesOf p'.buf = List.replicate 2 0 ++ [1, 2, 3] ++ [0xD] ∧
      p'.blen.toNat = p'.buf.length ∧ z.buf.map lowNibble = [1, 2, 3] ∧
      highNibble (z.buf.getLastD 0) = 0xD ∧ p.scale = z.scale ∧ p'.scale = z.scale ∧
      valueOfDigits [1, 2, 3] < 2 ^ 96 :=
  ⟨{ cmd := 0x00000021, bufP := true, buf := [0x12, 0x3D], blen := 2, scale := 1 },
    { cmd := 0x00000021, bufP := true, buf := [0x00, 0x12, 0x3D], blen := 3, scale := 1 },
    { cmd := 0x00000022, bufP := true, buf := [0xF1, 0xF2, 0xD3], scale := 1 },
    defaultParams_admissible, rfl, rfl, rfl, rfl, by decide⟩

/-- `I16DecSignExtends` and `I32DecIsBigEndian`: no operand, no room, and the last legal offset. -/
theorem witness_integer_decodes :
    (∃ r : Request, (one r).requests = [r] ∧ r.bufP = false) ∧
    (∃ r : Request, (one r).requests = [r] ∧ r.bufP = true ∧
      ¬ (∃ o, OffsetIs r.buf.length true r.idx 2 o) ∧
      ¬ ∃ o, OffsetIs r.buf.length true r.idx 4 o) ∧
    (∃ r : Request, (one r).requests = [r] ∧ r.bufP = true ∧
      OffsetIs r.buf.length true r.idx 2 1 ∧ (r.buf.drop 1).take 2 = [0xCD, 0xEF]) ∧
    (∃ r : Request, (one r).requests = [r] ∧ r.bufP = true ∧
      OffsetIs r.buf.length true r.idx 4 1 ∧
      (r.buf.drop 1).take 4 = [0x80, 0x00, 0x00, 0x00]) := by
  refine ⟨⟨{ cmd := 0x00000032 }, rfl, rfl⟩,
    ⟨{ cmd := 0x00000132, bufP := true, buf := [0xAB, 0xCD], idx := 1 }, rfl, rfl, ?_, ?_⟩,
    ⟨{ cmd := 0x00000132, bufP := true, buf := [0xAB, 0xCD, 0xEF], idx := 1 }, rfl, rfl,
      ⟨by decide, by decide⟩, by decide⟩,
    ⟨{ cmd := 0x00000133, bufP := true, buf := [0x00, 0x80, 0x00, 0x00, 0x00], idx := 1 }, rfl, rfl,
      ⟨by decide, by decide⟩, by decide⟩⟩
  · rintro ⟨o, h1, h2⟩
    simp at h1 h2
    omega
  · rintro ⟨o, -, h2⟩
    simp at h2

/-- `IntegerRoundTrips`: `-32768` and the bytes it makes, and `-2147483648` and the bytes it makes. -/
theorem witness_integer_round_trips :
    (∃ r r' : Request, (one r).requests = [r] ∧ (one r').requests = [r'] ∧ r'.bufP = true ∧
      r.cmd = 0x00000030 ∧ r'.cmd = 0x00000032 ∧ reply (one r) = some { obuf := r'.buf }) ∧
    (∃ r r' : Request, (one r).requests = [r] ∧ (one r').requests = [r'] ∧ r'.bufP = true ∧
      r.cmd = 0x00000031 ∧ r'.cmd = 0x00000033 ∧ reply (one r) = some { obuf := r'.buf }) :=
  ⟨⟨{ cmd := 0x00000030, arg0 := 0xFFFF8000 },
      { cmd := 0x00000032, bufP := true, buf := [0x80, 0x00] }, rfl, rfl, by decide⟩,
    ⟨{ cmd := 0x00000031, arg0 := 0x80000000 },
      { cmd := 0x00000033, bufP := true, buf := [0x80, 0x00, 0x00, 0x00] }, rfl, rfl, by decide⟩⟩

/-- `AssembledLinesDecodeToTheirCommand`: a line that is accepted. -/
theorem witness_assembled :
    (∃ r : Request, assemble (.txtDec (some [0xC1]) (.span 0 1)) = some r) ∧
    ∃ r : Request, assembleText "TXT_DEC [0xC1], 0, 1".toList = some r :=
  ⟨⟨_, rfl⟩,
    ⟨{ cmd := 0x00000302, bufP := true, buf := [0xC1], idx := 0, len := 1 }, by decide +kernel⟩⟩

/-- `PdEncsScalesItsLiteral`, clause by clause: `12345.6789` scaled by 4, `0.5` which is no integer,
and `2^96`. -/
theorem witness_pdEncs :
    (signFactor false * ((123456789 : Nat) : ℚ) / 10 ^ 4 * 10 ^ 4 = ((123456789 : ℤ) : ℚ) ∧
      (123456789 : ℤ).natAbs < 2 ^ 96) ∧
    (∀ n : ℤ, signFactor false * ((5 : Nat) : ℚ) / 10 ^ 1 * 10 ^ 0 ≠ n) ∧
    (2 : ℚ) ^ 96 ≤ |signFactor true * ((2 ^ 96 : Nat) : ℚ) / 10 ^ 0 * 10 ^ 0| := by
  refine ⟨by decide +kernel, fun n h => ?_, by decide +kernel⟩
  have hq : signFactor false * ((5 : Nat) : ℚ) / 10 ^ 1 * 10 ^ 0 = 1 / 2 := by decide +kernel
  rw [hq, div_eq_iff (by norm_num)] at h
  have : (1 : ℤ) = n * 2 := by exact_mod_cast h
  omega

/-- `SourceVectorsHold`: the default table, and a request for each clause. -/
theorem witness_source_vectors :
    RomAdmissible (one { cmd := 0x00000001 }).textRom ∧
    (∃ r : Request, (one r).requests = [r] ∧ r.txtP = true ∧ r.txt = [0x4E, 0x6F, 0x70, 0x65]) ∧
    (∀ a : Word, ∃ r : Request, (one r).requests = [r] ∧ r.arg0 = a) ∧
    (∀ b : List Byte, ∃ r : Request, (one r).requests = [r] ∧ r.bufP = true ∧ r.buf = b) :=
  ⟨defaultTextRom_admissible,
    ⟨{ cmd := 0x00000001, txtP := true, txt := [0x4E, 0x6F, 0x70, 0x65] }, rfl, rfl, rfl⟩,
    fun a => ⟨{ cmd := 0x00000030, arg0 := a }, rfl, rfl⟩,
    fun b => ⟨{ cmd := 0x00000032, bufP := true, buf := b }, rfl, rfl, rfl⟩⟩

end Sys2Proof.Tests
end

section
/-! PROOFS. The statements of the spec's scope (00_scope.md): what a response depends on, and
`RoundInt`. -/

namespace Sys2Proof.Machine

/-- The response to a request, from the table and the parameters alone. -/
def respond (rom : TextRom) (p : Params) (r : Request) : Response := finish (requestResult rom p r)

theorem step_eq_answered_respond {s : State} {r : Request} {rest : List Request}
    (h : s.requests = r :: rest) :
    step s = .next (answered s rest (respond s.textRom s.params r)) := step_cons h

/-- Only the meanings of the text unit take the table (10_state.md R30). -/
theorem resultOf_eq_of_not_text {i : Instr} (hi : isTextCommand i = false) (rom rom' : TextRom)
    (p : Params) : resultOf rom p i = resultOf rom' p i := by
  cases i with
  | txtEnc a1p a2p | txtDec a1p a2p => cases hi
  | _ => rfl

/-- The meanings of the text unit take no parameter. -/
theorem resultOf_eq_of_text {i : Instr} (hi : isTextCommand i = true) (rom : TextRom)
    (p p' : Params) : resultOf rom p i = resultOf rom p' i := by
  cases i with
  | txtEnc a1p a2p | txtDec a1p a2p => rfl
  | _ => cases hi

section roundRat
variable {q : ℚ}

theorem roundRat_of_fract_lt_half (mode : Rounding) (h : q - ⌊q⌋ < 1 / 2) :
    roundRat mode q = ⌊q⌋ := if_pos h

theorem roundRat_of_half_lt_fract (mode : Rounding) (h : 1 / 2 < q - ⌊q⌋) :
    roundRat mode q = ⌊q⌋ + 1 := (if_neg h.not_gt).trans (if_pos h)

/-- On a tie the mode alone chooses. -/
theorem roundRat_rne_of_fract_eq_half (h : q - ⌊q⌋ = 1 / 2) :
    roundRat .rne q = if ⌊q⌋ % 2 = 0 then ⌊q⌋ else ⌊q⌋ + 1 :=
  (if_neg h.not_lt).trans (if_neg h.not_gt)

theorem roundRat_rhu_of_fract_eq_half (h : q - ⌊q⌋ = 1 / 2) : roundRat .rhu q = ⌊q⌋ + 1 :=
  (if_neg h.not_lt).trans (if_neg h.not_gt)

theorem even_roundRat_rne_of_fract_eq_half (h : q - ⌊q⌋ = 1 / 2) : Even (roundRat .rne q) := by
  rw [roundRat_rne_of_fract_eq_half h, Int.even_iff]
  split
  · assumption
  · omega

theorem roundRat_eq_floor_or (mode : Rounding) (q : ℚ) :
    roundRat mode q = ⌊q⌋ ∨ roundRat mode q = ⌊q⌋ + 1 := by
  have hlo := floor_le_roundRat mode q
  have hhi := roundRat_le_floor_add_one mode q
  omega

end roundRat

end Sys2Proof.Machine

namespace Sys2Proof.Proofs

open Sys2Proof.Machine

/-- Settles O7: the function is `respond`. -/
theorem responseIsAFunctionOfTheRequest : Obligations.ResponseIsAFunctionOfTheRequest :=
  ⟨respond, fun _ _ _ => step_eq_answered_respond⟩

/-- Settles O19: the result of the command is the same at both states, by the unit it belongs to. -/
theorem onlyTextCommandsReadTheTable : Obligations.OnlyTextCommandsReadTheTable := by
  intro i s u r rest hs hu hparams hrom
  have hresult : resultOf s.textRom s.params i = resultOf u.textRom u.params i := by
    cases hi : isTextCommand i with
    | false => rw [hparams hi, resultOf_eq_of_not_text hi]
    | true => rw [hrom hi, resultOf_eq_of_text hi]
  exact ⟨_, exec_cons hs i, hresult ▸ exec_cons hu i⟩

/-- Settles O26: the model's `roundInt` is `roundRat`, taken by the size of the fraction and, on a
tie, by the mode. -/
theorem roundIntRoundsToTheNearest : Obligations.RoundIntRoundsToTheNearest := by
  intro mode num den hden q
  rw [roundInt_eq_roundRat mode num hden]
  refine ⟨roundRat_of_fract_lt_half mode, roundRat_of_half_lt_fract mode, fun htie => ⟨?_, ?_⟩⟩
  · rintro rfl
    exact ⟨even_roundRat_rne_of_fract_eq_half htie, roundRat_eq_floor_or .rne q⟩
  · rintro rfl
    exact roundRat_rhu_of_fract_eq_half htie

end Sys2Proof.Proofs
end

section
/-! PROOFS. The statements of the state (10_state.md): what every step keeps, what reset holds, and
the table's inverse. -/

namespace Sys2Proof.Machine

variable {rom : TextRom} {p : Params} {r : Request} {q : Response}

/-! ### What the successful result of each command is -/

theorem txtEncResult_ok {a1p a2p : Bool} (h : txtEncResult rom a1p a2p r = .ok q) :
    ∃ st n out, out.map (romRead rom) = elements r.txt st n ∧ q = { obuf := out } := by
  unfold txtEncResult at h
  split at h
  · cases h
  · split at h
    · cases h
    · next st n _ =>
      split at h
      · cases h
      · next out hout =>
        cases h
        exact ⟨st, n, out, map_romRead_of_encodeScalars hout, rfl⟩

theorem txtDecResult_ok {a1p a2p : Bool} (h : txtDecResult rom a1p a2p r = .ok q) :
    ∃ st n, q = { otxt := (elements r.buf st n).map (romRead rom) } := by
  unfold txtDecResult at h
  split at h
  · cases h
  · split at h
    · cases h
    · next st n _ => cases h; exact ⟨st, n, rfl⟩

theorem length_of_hfpEncodeMagnitude_ok {mode : Rounding} {s : Bool} {S : Nat} {b : Int}
    {out : List Byte} (h : hfpEncodeMagnitude mode s S b = .ok out) : out.length = 4 := by
  unfold hfpEncodeMagnitude at h
  extract_lets t e k mt mt' e' x at h
  split at h
  · cases h
  · split at h
    · cases h
    · cases h; rfl

theorem length_of_hfpEncode_ok {mode : Rounding} {f : Word} {out : List Byte}
    (h : hfpEncode mode f = .ok out) : out.length = 4 := by
  unfold hfpEncode at h
  split at h
  · cases h
  · split at h
    · cases h
    · split at h
      · cases h; rfl
      · exact length_of_hfpEncodeMagnitude_ok h

theorem hfpEncResult_ok {mode : Rounding} (h : hfpEncResult mode r = .ok q) :
    ∃ out : List Byte, out.length = 4 ∧ q = { obuf := out } := by
  unfold hfpEncResult at h
  split at h
  · cases h
  · next out hout => cases h; exact ⟨out, length_of_hfpEncode_ok hout, rfl⟩

theorem hfpDecResult_ok {a1p : Bool} (h : hfpDecResult a1p r = .ok q) : ∃ f, q = { res := f } := by
  unfold hfpDecResult at h
  split at h
  · cases h
  · split at h
    · cases h
    · split at h
      · cases h
      · next f _ => cases h; exact ⟨f, rfl⟩

/-- The padding makes up the `2 * L` nibbles of R154. -/
theorem pdEncResult_ok (h : pdEncResult p r = .ok q) :
    ∃ out : List Byte, out.length = r.blen.toNat ∧ q = { obuf := out } := by
  unfold pdEncResult at h
  dsimp only at h
  split at h
  · cases h
  · next hfit =>
    cases h
    refine ⟨_, length_bytesOfNibbles ?_, rfl⟩
    simp only [List.length_append, List.length_replicate, List.length_singleton]
    omega

theorem decimalResult_ok {neg : Bool} {d : List Nibble} {scale : Byte}
    (h : decimalResult neg d scale = .ok q) :
    ∃ m, q = { rneg := neg, rmag := m, rscale := scale } := by
  unfold decimalResult at h
  split at h
  · cases h
  · dsimp only at h
    split at h
    · cases h
    · cases h; exact ⟨_, rfl⟩

theorem pdDecResult_ok (h : pdDecResult p r = .ok q) :
    ∃ neg m, q = { rneg := neg, rmag := m, rscale := r.scale } := by
  unfold pdDecResult at h
  dsimp only at h
  split at h
  · cases h
  · split at h
    · cases h
    · split at h
      · cases h
      · split at h
        · cases h
        · next neg _ => exact ⟨neg, decimalResult_ok h⟩

theorem zdDecResult_ok (h : zdDecResult p r = .ok q) :
    ∃ neg m, q = { rneg := neg, rmag := m, rscale := r.scale } := by
  unfold zdDecResult at h
  split at h
  · cases h
  · split at h
    · cases h
    · split at h
      · cases h
      · next neg _ => exact ⟨neg, decimalResult_ok h⟩

theorem i16DecResult_ok {a1p : Bool} (h : i16DecResult a1p r = .ok q) : ∃ w, q = { res := w } := by
  unfold i16DecResult at h
  split at h
  · cases h
  · split at h
    · cases h
    · cases h; exact ⟨_, rfl⟩

theorem i32DecResult_ok {a1p : Bool} (h : i32DecResult a1p r = .ok q) : ∃ w, q = { res := w } := by
  unfold i32DecResult at h
  split at h
  · cases h
  · split at h
    · cases h
    · cases h; exact ⟨_, rfl⟩

/-- A successful result sets the result fields of its command and no others (30_encoding.md R71). -/
theorem writesOnly_of_resultOf {i : Instr} (h : resultOf rom p i r = .ok q) :
    WritesOnly i r q := by
  cases i with
  | txtEnc a1p a2p => obtain ⟨_, _, _, -, rfl⟩ := txtEncResult_ok h; rfl
  | txtDec a1p a2p => obtain ⟨_, _, rfl⟩ := txtDecResult_ok h; rfl
  | hfpEnc => obtain ⟨_, hlen, rfl⟩ := hfpEncResult_ok h; exact ⟨rfl, hlen⟩
  | hfpDec a1p => obtain ⟨_, rfl⟩ := hfpDecResult_ok h; rfl
  | pdEnc => obtain ⟨_, hlen, rfl⟩ := pdEncResult_ok h; exact ⟨rfl, hlen⟩
  | pdDec => obtain ⟨_, _, rfl⟩ := pdDecResult_ok h; rfl
  | zdDec => obtain ⟨_, _, rfl⟩ := zdDecResult_ok h; rfl
  | i16Enc | i32Enc => cases h; exact ⟨rfl, rfl⟩
  | i16Dec a1p => obtain ⟨_, rfl⟩ := i16DecResult_ok h; rfl
  | i32Dec a1p => obtain ⟨_, rfl⟩ := i32DecResult_ok h; rfl

/-! ### Every response is possible -/

/-- The error response is bare, and its status is one of the five of R201. -/
theorem responseOk_errorResponse (e : Error) : ResponseOk rom (errorResponse e) where
  assigned := by cases e <;> decide
  bareError _ := rfl
  obufLength := Nat.two_pow_pos _
  otxtLength := Nat.two_pow_pos _
  inImage _ hc := absurd hc List.not_mem_nil

/-- Without text, a success is possible if its bytes fit. -/
theorem responseOk_of_otxt_eq_nil (hstatus : q.status = 0) (htext : q.otxt = [])
    (hlen : q.obuf.length < 2 ^ Config.seqLenBits) : ResponseOk rom q where
  assigned := by simp [hstatus]
  bareError h := absurd hstatus h
  obufLength := hlen
  otxtLength := by simp [htext]
  inImage := by simp [htext]

/-- TXT_DEC's text is no longer than its bytes, and every element of it is an entry of the table. -/
theorem responseOk_map_romRead {b : List Byte} (hlen : b.length < 2 ^ Config.seqLenBits) :
    ResponseOk rom { otxt := b.map (romRead rom) } where
  assigned := Nat.zero_le 5
  bareError h := absurd rfl h
  obufLength := Nat.two_pow_pos _
  otxtLength := by rwa [List.length_map]
  inImage c hc := by
    obtain ⟨i, -, hi⟩ := List.mem_map.mp hc
    exact ⟨i, hi⟩

/-- Outside the text unit a success carries no text and at most 255 bytes, the largest `BLEN`. -/
theorem fields_of_writesOnly {i : Instr} (hi : isTextCommand i = false) (h : WritesOnly i r q) :
    q.status = 0 ∧ q.otxt = [] ∧ q.obuf.length ≤ 255 := by
  cases i with
  | txtEnc a1p a2p | txtDec a1p a2p => cases hi
  | hfpEnc | i16Enc | i32Enc =>
    obtain ⟨hq, hlen⟩ := h
    exact ⟨congrArg Response.status hq, congrArg Response.otxt hq, by omega⟩
  | pdEnc =>
    obtain ⟨hq, hlen⟩ := h
    have hblen := r.blen.isLt
    exact ⟨congrArg Response.status hq, congrArg Response.otxt hq, by omega⟩
  | hfpDec a1p | pdDec | zdDec | i16Dec a1p | i32Dec a1p =>
    have hobuf : q.obuf = [] := congrArg Response.obuf h
    exact ⟨congrArg Response.status h, congrArg Response.otxt h, by simp [hobuf]⟩

/-- What a command makes of a request a caller can spell is possible: a slice is no longer than its
operand, and the other commands write few bytes and no text. -/
theorem responseOk_of_resultOf {i : Instr} (hr : RequestOk r) (h : resultOf rom p i r = .ok q) :
    ResponseOk rom q := by
  cases hi : isTextCommand i with
  | false =>
    obtain ⟨hstatus, htext, hlen⟩ := fields_of_writesOnly hi (writesOnly_of_resultOf h)
    exact responseOk_of_otxt_eq_nil hstatus htext (hlen.trans_lt (by decide))
  | true =>
    cases i with
    | txtEnc a1p a2p =>
      obtain ⟨st, n, out, hout, rfl⟩ := txtEncResult_ok h
      have hlen := congrArg List.length hout
      rw [List.length_map, length_elements] at hlen
      have htxt := hr.txtLength
      exact responseOk_of_otxt_eq_nil rfl rfl (by dsimp only; omega)
    | txtDec a1p a2p =>
      obtain ⟨st, n, rfl⟩ := txtDecResult_ok h
      have hbuf := hr.bufLength
      exact responseOk_map_romRead (by rw [length_elements]; omega)
    | _ => cases hi

theorem responseOk_respond (hr : RequestOk r) : ResponseOk rom (respond rom p r) := by
  unfold respond
  cases h : requestResult rom p r with
  | error e => exact responseOk_errorResponse e
  | ok q =>
    unfold requestResult at h
    split at h
    · exact responseOk_of_resultOf hr h
    · cases h

/-! ### The invariant -/

section Inv
variable {s : State} {rest : List Request}

theorem inv_answered (hs : Inv s) (hreq : s.requests = r :: rest) :
    Inv (answered s rest (respond s.textRom s.params r)) where
  rom := hs.rom
  params := hs.params
  requests x hx := hs.requests x (hreq ▸ List.mem_cons_of_mem r hx)
  responses x hx := by
    rcases List.mem_append.mp hx with hold | hnew
    · exact hs.responses x hold
    · rw [List.mem_singleton.mp hnew]
      exact responseOk_respond (hs.requests r (hreq ▸ List.mem_cons_self))

theorem inv_step {t : State} (hs : Inv s) (h : step s = .next t) : Inv t := by
  rcases step_cases h with ⟨-, rfl⟩ | ⟨r, rest, hreq, rfl⟩
  · exact hs
  · exact inv_answered hs hreq

theorem inv_issue (hs : Inv s) (hr : RequestOk r) : Inv (issue r s) where
  rom := hs.rom
  params := hs.params
  requests x hx := by
    rcases List.mem_append.mp hx with hold | hnew
    · exact hs.requests x hold
    · exact List.mem_singleton.mp hnew ▸ hr
  responses := hs.responses

theorem inv_resetSignal (hs : Inv s) : Inv (resetSignal s) where
  rom := hs.rom
  params := hs.params
  requests _ hx := absurd hx List.not_mem_nil
  responses := hs.responses

end Inv

theorem inv_reset : Inv State.reset where
  rom := defaultTextRom_admissible
  params := defaultParams_admissible
  requests _ hx := absurd hx List.not_mem_nil
  responses _ hx := absurd hx List.not_mem_nil

/-! ### The frame of the table and the parameters -/

theorem answer_frame {s t : State} {f : Request → Except Error Response}
    (h : answer s f = .next t) : t.textRom = s.textRom ∧ t.params = s.params := by
  obtain ⟨r, rest, -, rfl⟩ := answer_next h
  exact ⟨rfl, rfl⟩

theorem exec_frame {i : Instr} {s t : State} (h : exec i s = .next t) :
    t.textRom = s.textRom ∧ t.params = s.params :=
  answer_frame (exec_eq_answer i s ▸ h)

theorem step_frame {s t : State} (h : step s = .next t) :
    t.textRom = s.textRom ∧ t.params = s.params := by
  rcases step_cases h with ⟨-, rfl⟩ | ⟨r, rest, -, rfl⟩
  · exact ⟨rfl, rfl⟩
  · exact ⟨rfl, rfl⟩

/-! ### The inverse of the table -/

theorem romInv_eq_some (h : RomAdmissible rom) {c : Scalar} {i : Byte} :
    romInv rom c = some i ↔ romRead rom i = c := by
  constructor
  · exact romRead_of_romInv
  · rintro rfl
    exact romInv_romRead h i

theorem romRead_ne_of_not_isUnicodeScalar (h : RomAdmissible rom) {c : Scalar}
    (hc : ¬ IsUnicodeScalar c) (i : Byte) : romRead rom i ≠ c := by
  rintro rfl
  exact hc (h.scalars i)

/-- A selected element outside the image of the table is UnmappableCharacter (40_text_codec.md
R101). -/
theorem txtEncResult_of_unmappable {a1p a2p : Bool} {st n : Nat} (hp : r.txtP = true)
    (hslice : SliceIs r.txt.length a1p r.idx a2p r.len st n)
    (hc : ∃ c ∈ elements r.txt st n, ∀ i, romRead rom i ≠ c) :
    txtEncResult rom a1p a2p r = .error .unmappableCharacter := by
  have henc : encodeScalars rom (elements r.txt st n) = .error .unmappableCharacter :=
    encodeScalars_error_iff.mpr ⟨rfl, hc⟩
  simp [txtEncResult, hp, sliceRange_of_sliceIs hslice, henc]

end Sys2Proof.Machine

namespace Sys2Proof.Proofs

open Sys2Proof.Machine

/-- Settles O12: a step is idle or answers a request a caller can spell with a possible response, and
the host's moves touch the requests alone. -/
theorem everyStepKeepsTheInvariant : Obligations.EveryStepKeepsTheInvariant :=
  ⟨fun _ _ => inv_step, fun _ _ => inv_issue, fun _ => inv_resetSignal⟩

/-- Settles O13, by what `answer` leaves unchanged. -/
theorem tableAndParametersNeverChange : Obligations.TableAndParametersNeverChange :=
  ⟨fun _ _ _ => exec_frame, fun _ _ => step_frame, fun _ _ => ⟨rfl, rfl, rfl, rfl⟩⟩

/-- Settles O20: an admissible table is injective. -/
theorem romInverseIsTheUniqueIndex : Obligations.RomInverseIsTheUniqueIndex :=
  fun _ hrom => ⟨fun _ _ => romInv_eq_some hrom, fun _ => romInv_eq_none⟩

/-- Settles O23: an admissible table holds Unicode scalar values only, so the element has no entry. -/
theorem nonScalarsAreUnmappableInEveryTable : Obligations.NonScalarsAreUnmappableInEveryTable := by
  intro s r rest a1p a2p st n c hrom hreq hp hslice hmem hc
  have hnot : ¬ IsUnicodeScalar c := by
    rintro ⟨hmax, hsurrogate⟩
    omega
  have hresult : resultOf s.textRom s.params (.txtEnc a1p a2p) r = .error .unmappableCharacter :=
    txtEncResult_of_unmappable hp hslice ⟨c, hmem, romRead_ne_of_not_isUnicodeScalar hrom hnot⟩
  rw [exec_cons hreq, hresult]
  rfl

/-- Settles O10: the default table is onto the 256 scalars below `U+0100`. -/
theorem resetHoldsTheDefaultImageAndParameters :
    Obligations.ResetHoldsTheDefaultImageAndParameters := by
  refine ⟨rfl, rfl, fun c => ⟨?_, defaultRom_onto⟩, rfl, rfl, rfl, rfl, rfl, rfl⟩
  rintro ⟨i, rfl⟩
  exact defaultRom_small i

/-- Settles O11: the default table and the default parameters are admissible. -/
theorem resetMeetsTheInvariant : Obligations.ResetMeetsTheInvariant := inv_reset

end Sys2Proof.Proofs
end

section
/-! PROOFS. The statements of the encoding (30_encoding.md): command words, the fields a command
reads and writes, and the assembler. -/

namespace Sys2Proof

/-! ### Decoding and encoding -/

theorem encode_fields (i : Instr) : Laws.EncodeFields.Statement i := by
  cases i with
  | txtEnc a1p a2p => exact Laws.EncodeFields.txtEnc a1p a2p
  | txtDec a1p a2p => exact Laws.EncodeFields.txtDec a1p a2p
  | hfpEnc => exact Laws.EncodeFields.hfpEnc
  | hfpDec a1p => exact Laws.EncodeFields.hfpDec a1p
  | pdEnc => exact Laws.EncodeFields.pdEnc
  | pdDec => exact Laws.EncodeFields.pdDec
  | zdDec => exact Laws.EncodeFields.zdDec
  | i16Enc => exact Laws.EncodeFields.i16Enc
  | i32Enc => exact Laws.EncodeFields.i32Enc
  | i16Dec a1p => exact Laws.EncodeFields.i16Dec a1p
  | i32Dec a1p => exact Laws.EncodeFields.i32Dec a1p

theorem decodeOp_fields {i : Instr} (h : i.wellFormed = true) :
    decodeOp i.opcode i.a1p i.a2p = .ok i := by
  cases i with
  | txtEnc a1p a2p | txtDec a1p a2p => exact if_pos h
  | _ => rfl

theorem decode_eq_ok_iff {w : Word} {i : Instr} :
    decode w = .ok i ↔ cmdRsv w = 0 ∧ decodeOp (cmdOp w) (cmdA1P w) (cmdA2P w) = .ok i := by
  unfold decode
  split <;> simp_all

theorem decode_encode {i : Instr} (h : i.wellFormed = true) : decode (encode i) = .ok i := by
  obtain ⟨hrsv, hop, ha1p, ha2p⟩ := encode_fields i
  rw [decode_eq_ok_iff, hop, ha1p, ha2p]
  exact ⟨hrsv, decodeOp_fields h⟩

/-- The word of a command has the fields the decoder read from `w`. -/
theorem wellFormed_and_encode_of_decode {w : Word} {i : Instr} (h : decode w = .ok i) :
    i.wellFormed = true ∧ encode i = w := by
  obtain ⟨hrsv, hdecode⟩ := decode_eq_ok_iff.mp h
  obtain ⟨hwf, hop, ha1p, ha2p⟩ := decodeOp_ok hdecode
  obtain ⟨hrsv', hop', ha1p', ha2p'⟩ := encode_fields i
  exact ⟨hwf, cmd_ext (hrsv'.trans hrsv.symm) (hop'.trans hop) (ha1p'.trans ha1p)
    (ha2p'.trans ha2p)⟩

/-! ### The table of legal words -/

theorem encode_mem_legalTable {i : Instr} (h : i.wellFormed = true) :
    (encode i, i) ∈ legalTable := by
  cases i with
  | txtEnc a1p a2p | txtDec a1p a2p => revert a1p a2p; decide
  | hfpDec a1p | i16Dec a1p | i32Dec a1p => revert a1p; decide
  | _ => decide

theorem decode_of_mem_legalTable : ∀ row ∈ legalTable, decode row.1 = .ok row.2 := by decide

theorem decode_eq_ok_iff_mem_legalTable {w : Word} {i : Instr} :
    decode w = .ok i ↔ (w, i) ∈ legalTable := by
  constructor
  · intro h
    obtain ⟨hwf, rfl⟩ := wellFormed_and_encode_of_decode h
    exact encode_mem_legalTable hwf
  · exact decode_of_mem_legalTable (w, i)

/-- A reserved bit is set (30_encoding.md R65), the operation is unassigned (R66), or the presence
bits are illegal for the operation (R63). -/
abbrev IllegalWord (w : Word) : Prop :=
  2 ^ 10 ≤ w.toNat ∨
  w.toNat % 2 ^ 8 ∉ [0x01, 0x02, 0x10, 0x11, 0x20, 0x21, 0x22, 0x30, 0x31, 0x32, 0x33] ∨
  (w.toNat % 2 ^ 8 ∈ [0x01, 0x02] ∧ w.getLsbD 8 = false ∧ w.getLsbD 9 = true) ∨
  (w.toNat % 2 ^ 8 ∈ [0x11, 0x32, 0x33] ∧ w.getLsbD 9 = true) ∨
  (w.toNat % 2 ^ 8 ∈ [0x10, 0x20, 0x21, 0x22, 0x30, 0x31] ∧
    (w.getLsbD 8 = true ∨ w.getLsbD 9 = true))

theorem not_illegalWord_of_mem_legalTable : ∀ row ∈ legalTable, ¬ IllegalWord row.1 := by decide

theorem exists_decode_error_of_illegalWord {w : Word} (h : IllegalWord w) :
    ∃ e, decode w = .error e := by
  cases hd : decode w with
  | ok i =>
    have hrow := decode_eq_ok_iff_mem_legalTable.mp hd
    exact absurd h (not_illegalWord_of_mem_legalTable (w, i) hrow)
  | error e => exact ⟨e, rfl⟩

end Sys2Proof

namespace Sys2Proof.Machine

theorem decode_tableWord_of_decodeTableWord {nbits w : Nat} {i : Instr}
    (h : decodeTableWord nbits w = some i) : decode (tableWord nbits w) = .ok i := by
  unfold decodeTableWord at h
  cases hd : decode (tableWord nbits w) with
  | ok j => rw [hd] at h; cases h; rfl
  | error e => rw [hd] at h; cases h

theorem step_withFetchWord (s : State) {nbits w : Nat} {i : Instr}
    (h : decodeTableWord nbits w = some i) :
    step (s.withFetchWord nbits w) = exec i (s.withFetchWord nbits w) := by
  obtain ⟨r, rest, hreq, hcmd⟩ := withCommand_head s (tableWord nbits w)
  exact step_decoded hreq (hcmd ▸ decode_tableWord_of_decodeTableWord h)

/-! ### The fields a command reads -/

section SameReads
variable {a1p a2p : Bool} {idx idx' len len' : Word}

theorem startIndex_congr (h : a1p = true → idx = idx') :
    startIndex a1p idx = startIndex a1p idx' :=
  ite_congr rfl (fun hp => congrArg BitVec.toInt (h hp)) fun _ => rfl

theorem sliceLength_congr (total : Nat) (start : Int) (h : a2p = true → len = len') :
    sliceLength total start a2p len = sliceLength total start a2p len' :=
  ite_congr rfl (fun hp => congrArg BitVec.toInt (h hp)) fun _ => rfl

theorem sliceRange_congr (total : Nat) (hidx : a1p = true → idx = idx')
    (hlen : a2p = true → len = len') :
    sliceRange total a1p idx a2p len = sliceRange total a1p idx' a2p len' := by
  simp only [sliceRange, startIndex_congr hidx, sliceLength_congr total _ hlen]

theorem sliceFixed_congr (total w : Nat) (hidx : a1p = true → idx = idx') :
    sliceFixed total a1p idx w = sliceFixed total a1p idx' w := by
  simp only [sliceFixed, startIndex_congr hidx]

/-- A command that rejects an absent operand reads the operand only where it is present. -/
theorem ifPresent_congr {α : Type} {p p' : Bool} {absent x y : α} (hp : p = p')
    (h : p = true → x = y) : (if !p then absent else x) = if !p' then absent else y := by
  subst hp
  cases p with
  | false => rfl
  | true => exact h rfl

/-- 30_encoding.md R70. -/
theorem resultOf_congr (rom : TextRom) (p : Params) {i : Instr} {r r' : Request}
    (h : SameReads i r r') : resultOf rom p i r = resultOf rom p i r' := by
  cases i with
  | txtEnc a1p a2p =>
    obtain ⟨hp, htxt, hidx, hlen⟩ := h
    exact ifPresent_congr hp fun hpresent => by
      rw [htxt hpresent, sliceRange_congr _ hidx hlen]
  | txtDec a1p a2p =>
    obtain ⟨hp, hbuf, hidx, hlen⟩ := h
    exact ifPresent_congr hp fun hpresent => by
      rw [hbuf hpresent, sliceRange_congr _ hidx hlen]
  | hfpEnc =>
    have harg : r.arg0 = r'.arg0 := h
    simp only [resultOf, hfpEncResult, harg]
  | hfpDec a1p =>
    obtain ⟨hp, hbuf, hidx⟩ := h
    exact ifPresent_congr hp fun hpresent => by rw [hbuf hpresent, sliceFixed_congr _ _ hidx]
  | pdEnc =>
    obtain ⟨hneg, hmag, hblen⟩ := h
    simp only [resultOf, pdEncResult, hneg, hmag, hblen]
  | pdDec =>
    obtain ⟨hp, hbuf, hblen, hscale⟩ := h
    exact ifPresent_congr hp fun hpresent => by rw [hbuf hpresent, hblen, hscale]
  | zdDec =>
    obtain ⟨hp, hbuf, hscale⟩ := h
    exact ifPresent_congr hp fun hpresent => by rw [hbuf hpresent, hscale]
  | i16Enc =>
    have hhalf : r.arg0.extractLsb' 0 16 = r'.arg0.extractLsb' 0 16 := h
    simp only [resultOf, i16EncResult, hhalf]
  | i32Enc =>
    have harg : r.arg0 = r'.arg0 := h
    simp only [resultOf, i32EncResult, harg]
  | i16Dec a1p | i32Dec a1p =>
    obtain ⟨hp, hbuf, hidx⟩ := h
    exact ifPresent_congr hp fun hpresent => by rw [hbuf hpresent, sliceFixed_congr _ _ hidx]

end SameReads

/-! ### The fields a command writes -/

theorem statusOf_ne_zero (e : Error) : statusOf e ≠ 0 := by
  cases e <;> decide

theorem status_of_writesOnly {i : Instr} {r : Request} {q : Response} (h : WritesOnly i r q) :
    q.status = 0 := by
  cases hi : isTextCommand i with
  | false =>
    obtain ⟨hstatus, -, -⟩ := fields_of_writesOnly hi h
    exact hstatus
  | true =>
    cases i with
    | txtEnc a1p a2p | txtDec a1p a2p => exact congrArg Response.status h
    | _ => cases hi

/-! ### The assembler -/

theorem sliceLine_cmd {mk : Bool → Bool → Instr} {operand : Instr → Request} {args : SliceArgs}
    {r : Request} (hoperand : ∀ i, (operand i).cmd = encode i)
    (h : sliceLine mk operand args = some r) : r.cmd = encode (mk args.bits.1 args.bits.2) := by
  cases args with
  | whole => cases h; exact hoperand _
  | suffix start =>
    dsimp only [sliceLine] at h
    split at h
    · cases h
    · cases h; exact hoperand _
  | span start len =>
    dsimp only [sliceLine] at h
    split at h
    · cases h; exact hoperand _
    · cases h

theorem offsetLine_cmd {mk : Bool → Instr} {bytes : Option (List Byte)} {off : Option Int}
    {r : Request} (h : offsetLine mk bytes off = some r) : r.cmd = encode (mk off.isSome) := by
  cases off with
  | none => cases h; rfl
  | some o =>
    dsimp only [offsetLine] at h
    split at h
    · cases h
    · cases h; rfl

theorem pdEncLine_cmd {neg : Bool} {m length : Nat} {r : Request}
    (h : pdEncLine neg m length = some r) : r.cmd = encode .pdEnc := by
  unfold pdEncLine at h
  split at h
  · cases h
  · split at h
    · cases h
    · cases h; rfl

theorem assemble_cmd {line : AsmLine} {r : Request} (h : assemble line = some r) :
    r.cmd = encode (lineCommand line) := by
  cases line with
  | txtEnc text args => exact sliceLine_cmd (operand := (withText · text)) (fun _ => rfl) h
  | txtDec bytes args => exact sliceLine_cmd (operand := (withBytes · bytes)) (fun _ => rfl) h
  | hfpDec _ off | i16Dec _ off | i32Dec _ off => exact offsetLine_cmd h
  | pdEnc value length => exact pdEncLine_cmd h
  | pdEncs value scale length =>
    dsimp only [assemble] at h
    split at h
    · cases h
    · exact pdEncLine_cmd h
  | pdDec bytes length scale =>
    dsimp only [assemble] at h
    split at h
    · cases h; rfl
    · cases h
  | i16Enc value =>
    dsimp only [assemble] at h
    split at h
    · cases h; rfl
    · cases h
  | hfpEnc value | zdDec bytes scale | i32Enc value =>
    dsimp only [assemble] at h
    split at h
    · cases h
    · cases h; rfl

/-- An assembler line has no spelling for a length without a start (30_encoding.md R73). -/
theorem wellFormed_lineCommand (line : AsmLine) : (lineCommand line).wellFormed = true := by
  cases line with
  | txtEnc _ args | txtDec _ args => cases args <;> rfl
  | _ => rfl

theorem decode_of_assemble {line : AsmLine} {r : Request} (h : assemble line = some r) :
    decode r.cmd = .ok (lineCommand line) := by
  rw [assemble_cmd h]
  exact decode_encode (wellFormed_lineCommand line)

theorem assembleText_eq_some {text : List Char} {r : Request} (h : assembleText text = some r) :
    ∃ line, readLine text = some line ∧ assemble line = some r := by
  unfold assembleText at h
  split at h
  · cases h
  · next line hline => exact ⟨line, hline, h⟩

/-! ### PD_ENCS -/

theorem pdEncLine_of_lt {m length : Nat} (neg : Bool) (hm : m < 2 ^ 96) (hl : length ≤ 255) :
    pdEncLine neg m length = some
      { cmd := 0x00000020, dneg := neg, dmag := BitVec.ofNat 96 m,
        blen := BitVec.ofNat 8 length } := by
  simp only [pdEncLine, byteOperand, if_pos hl]
  exact if_neg hm.not_ge

theorem pdEncLine_of_le {m : Nat} (neg : Bool) (length : Nat) (hm : 2 ^ 96 ≤ m) :
    pdEncLine neg m length = none := by
  unfold pdEncLine
  split
  · rfl
  · exact if_pos hm

/-- The number a decimal literal denotes (30_encoding.md R73). -/
def DecimalLit.value (d : DecimalLit) : ℚ := signFactor d.neg * d.coeff / 10 ^ d.places

section pdEncs
variable {d : DecimalLit} {scale n : Nat}

theorem assemble_pdEncs_of_eq_mul (hscale : scale ≤ 255) (length : Nat)
    (h : d.coeff * 10 ^ scale = n * 10 ^ d.places) :
    assemble (.pdEncs d scale length) = pdEncLine (d.neg && n ≠ 0) n length := by
  simp [assemble, h, hscale.not_gt]

theorem assemble_pdEncs_of_not_dvd (length : Nat) (h : ¬ 10 ^ d.places ∣ d.coeff * 10 ^ scale) :
    assemble (.pdEncs d scale length) = none :=
  if_pos (.inr (mt Nat.dvd_of_mod_eq_zero h))

theorem scaled_value_of_eq_mul (h : d.coeff * 10 ^ scale = n * 10 ^ d.places) :
    d.value * 10 ^ scale = signFactor d.neg * n := by
  have h' : (d.coeff : ℚ) * 10 ^ scale = n * 10 ^ d.places := by exact_mod_cast h
  rw [DecimalLit.value, div_mul_eq_mul_div, mul_assoc, h', ← mul_assoc]
  exact mul_div_cancel_right₀ _ (by positivity)

theorem abs_signFactor (s : Bool) : |signFactor s| = 1 := by
  cases s <;> simp [signFactor]

/-- The scaled literal is an integer only if the number of places divides it out. -/
theorem eq_mul_of_scaled_value_eq {z : ℤ} (h : d.value * 10 ^ scale = z) :
    d.coeff * 10 ^ scale = z.natAbs * 10 ^ d.places := by
  have habs : (d.coeff : ℚ) / 10 ^ d.places * 10 ^ scale = z.natAbs := by
    rw [Nat.cast_natAbs, Int.cast_abs, ← h, DecimalLit.value]
    simp [abs_mul, abs_div, abs_signFactor]
  rw [div_mul_eq_mul_div, div_eq_iff (by positivity)] at habs
  exact_mod_cast habs

/-- A zero literal is not negative, whatever its written sign. -/
theorem neg_and_ne_zero_eq_decide_lt {s : Bool} {z : ℤ} (h : signFactor s * n = z) :
    (s && n ≠ 0) = decide (z < 0) := by
  cases s with
  | false =>
    have hq : (n : ℚ) = z := by simpa [signFactor] using h
    have hz : (n : ℤ) = z := by exact_mod_cast hq
    simp [show ¬ z < 0 by omega]
  | true =>
    have hq : -(n : ℚ) = z := by simpa [signFactor] using h
    have hz : -(n : ℤ) = z := by exact_mod_cast hq
    simp only [Bool.true_and, decide_eq_decide]
    omega

end pdEncs

end Sys2Proof.Machine

namespace Sys2Proof.Proofs

open Sys2Proof.Machine

/-- Settles O2: the fields of a command's word are the command's own, and a word is its fields. -/
theorem decodeAndEncodeAgree : Obligations.DecodeAndEncodeAgree :=
  ⟨fun _ => decode_encode, fun _ _ => wellFormed_and_encode_of_decode⟩

/-- Settles O1: the table's rows are the words of the well-formed commands. -/
theorem legalWordsAreExactlyTheTable : Obligations.LegalWordsAreExactlyTheTable :=
  ⟨rfl, fun _ _ => decode_eq_ok_iff_mem_legalTable⟩

/-- Settles O4: no row of the table of legal words is such a word. -/
theorem illegalWordsAreAnsweredIllegalCommand :
    Obligations.IllegalWordsAreAnsweredIllegalCommand := by
  intro s r rest hreq hillegal
  obtain ⟨e, he⟩ := exists_decode_error_of_illegalWord hillegal
  exact step_illegal hreq he

/-- Settles O16: the result of the command is the same for both requests. -/
theorem commandsReadOnlyTheirFields : Obligations.CommandsReadOnlyTheirFields := by
  intro i s u r r' rest rest' hrom hparams hs hu hsame
  refine ⟨_, exec_cons hs i, ?_⟩
  rw [exec_cons hu, hrom, hparams, resultOf_congr _ _ hsame]

/-- Settles O17, by how the command's pseudocode ends. -/
theorem commandsWriteOnlyTheirFields : Obligations.CommandsWriteOnlyTheirFields := by
  intro i s r rest hreq
  refine ⟨_, exec_cons hreq i, ?_⟩
  cases hresult : resultOf s.textRom s.params i r with
  | ok q =>
    have hwrites := writesOnly_of_resultOf hresult
    exact ⟨fun _ => hwrites, absurd (status_of_writesOnly hwrites)⟩
  | error e => exact ⟨fun h => absurd h (statusOf_ne_zero e), fun _ => rfl⟩

/-- Settles O44: the word of an accepted line is the encoding of its command. -/
theorem assembledLinesDecodeToTheirCommand : Obligations.AssembledLinesDecodeToTheirCommand := by
  refine ⟨fun _ _ => decode_of_assemble, fun text r h => ?_⟩
  obtain ⟨line, hread, hassemble⟩ := assembleText_eq_some h
  exact ⟨line, hread, hassemble, decode_of_assemble hassemble⟩

/-- Settles O46: the scaled literal is an integer exactly if its coefficient is a multiple of
`10 ^ places`. -/
theorem pdEncsScalesItsLiteral : Obligations.PdEncsScalesItsLiteral := by
  intro d scale length hscale hlength v
  refine ⟨fun z hz hlt => ?_, fun hreject => ?_⟩
  · have hmul := eq_mul_of_scaled_value_eq hz
    have hsign := neg_and_ne_zero_eq_decide_lt ((scaled_value_of_eq_mul hmul).symm.trans hz)
    have hline : assemble (.pdEncs d scale length) = assemble (.pdEnc z length) := by
      rw [assemble_pdEncs_of_eq_mul hscale length hmul, hsign]
      rfl
    exact ⟨hline, hline.trans (pdEncLine_of_lt _ hlt hlength)⟩
  · by_cases hdvd : 10 ^ d.places ∣ d.coeff * 10 ^ scale
    · obtain ⟨n, hn⟩ := hdvd
      have hmul := hn.trans (Nat.mul_comm _ n)
      have hv : v = signFactor d.neg * n := scaled_value_of_eq_mul hmul
      have hbig : 2 ^ 96 ≤ n := by
        rcases hreject with hnone | hbig
        · cases hneg : d.neg with
          | false => exact absurd (by simp [hv, hneg, signFactor]) (hnone n)
          | true => exact absurd (by simp [hv, hneg, signFactor]) (hnone (-n))
        · rw [hv, abs_mul, abs_signFactor, one_mul, Nat.abs_cast] at hbig
          exact_mod_cast hbig
      rw [assemble_pdEncs_of_eq_mul hscale length hmul, pdEncLine_of_le _ _ hbig]
    · exact assemble_pdEncs_of_not_dvd length hdvd

/-- Settles O3: each word is a literal, and the decoder computes. -/
theorem writtenOutWordsDecode : Obligations.WrittenOutWordsDecode := by
  unfold Obligations.WrittenOutWordsDecode
  decide

/-- Settles O5, by what `withFetchWord` puts first. -/
theorem stepRunsTheDecodedCommand : Obligations.StepRunsTheDecodedCommand :=
  ⟨fun _ _ _ _ hreq => step_decoded hreq, fun _ => step_nil, fun s _ _ _ => step_withFetchWord s⟩

/-- Settles O45: each line is a literal, and the assembler computes. -/
theorem assemblerReadsTheSpecsLines : Obligations.AssemblerReadsTheSpecsLines := by
  refine ⟨?_, ?_, ?_, ?_, ?_, ?_, ?_⟩ <;> decide +kernel

end Sys2Proof.Proofs
end

section
/-! PROOFS. The statements of the text codec (40_text_codec.md): TXT_ENC and TXT_DEC over their
slices, their round trips, and slicing. -/

namespace Sys2Proof.Machine

/-! ### A command's answer, from its result -/

section answers
variable {s : State} {r : Request} {rest : List Request} {q : Response} {e : Error}

theorem exec_of_result_ok {i : Instr} (hreq : s.requests = r :: rest)
    (h : resultOf s.textRom s.params i r = .ok q) : exec i s = .next (answered s rest q) := by
  rw [exec_cons hreq, h, finish_ok]

theorem exec_of_result_error (i : Instr) (hreq : s.requests = r :: rest)
    (h : resultOf s.textRom s.params i r = .error e) :
    exec i s = .next (answered s rest { status := statusOf e }) := by
  rw [exec_cons hreq, h, finish_error]

theorem step_of_result_ok (i : Instr) (hreq : s.requests = r :: rest)
    (hd : decode r.cmd = .ok i) (h : resultOf s.textRom s.params i r = .ok q) :
    step s = .next (answered s rest q) :=
  (step_decoded hreq hd).trans (exec_of_result_ok hreq h)

theorem answered_inj {q' : Response} (h : answered s rest q = answered s rest q') : q = q' :=
  List.singleton_inj.mp (List.append_cancel_left (congrArg State.responses h))

/-- A response with status OK is the result of the command: every error has another status. -/
theorem result_ok_of_step (i : Instr) (hreq : s.requests = r :: rest)
    (hd : decode r.cmd = .ok i) (hstep : step s = .next (answered s rest q)) (hq : q.status = 0) :
    resultOf s.textRom s.params i r = .ok q := by
  rw [step_decoded hreq hd] at hstep
  cases hresult : resultOf s.textRom s.params i r with
  | ok q' =>
    rw [exec_of_result_ok hreq hresult, Host.Outcome.next.injEq] at hstep
    rw [answered_inj hstep]
  | error e =>
    rw [exec_of_result_error i hreq hresult, Host.Outcome.next.injEq] at hstep
    rw [← answered_inj hstep] at hq
    exact absurd hq (statusOf_ne_zero e)

end answers

/-! ### Slices -/

/-- Without presence bits the slice is the whole operand. -/
theorem sliceIs_whole (total : Nat) (idx len : Word) :
    SliceIs total false idx false len 0 total := by
  simp [SliceIs]

theorem elements_whole {α : Type} (l : List α) : elements l 0 l.length = l := List.take_length

theorem map_elements {α β : Type} (f : α → β) (l : List α) (st n : Nat) :
    (elements l st n).map f = elements (l.map f) st n := by
  simp [elements]

theorem length_elements_of_sliceIs {α : Type} {l : List α} {a1p a2p : Bool} {idx len : Word}
    {st n : Nat} (h : SliceIs l.length a1p idx a2p len st n) : (elements l st n).length = n := by
  obtain ⟨-, -, hle⟩ := h
  rw [length_elements]
  omega

theorem getElem?_elements {α : Type} {l : List α} {st n k : Nat} (h : k < n) :
    (elements l st n)[k]? = l[st + k]? := by
  rw [elements, List.getElem?_take_of_lt h, List.getElem?_drop]

/-! ### TXT_ENC and TXT_DEC -/

section text
variable {rom : TextRom} {r : Request} {a1p a2p : Bool} {st n : Nat}

/-- The encoder succeeds exactly where `ROM_INV` finds each scalar's code. -/
theorem encodeScalars_eq_ok_iff {t : List Scalar} {b : List Byte} :
    encodeScalars rom t = .ok b ↔ t.map (romInv rom) = b.map some := by
  induction t generalizing b with
  | nil => cases b <;> simp [encodeScalars]
  | cons c t ih =>
    cases hc : romInv rom c with
    | none => cases b <;> simp [encodeScalars, hc]
    | some i =>
      cases b with
      | nil => cases ht : encodeScalars rom t <;> simp [encodeScalars, hc, ht]
      | cons j b =>
        simp only [List.map_cons, List.cons.injEq, ← ih]
        cases ht : encodeScalars rom t <;> simp [encodeScalars, hc, ht]

/-- Each code depends on the scalar at its own position alone. -/
theorem encodeScalars_elements {t : List Scalar} {b : List Byte} (h : encodeScalars rom t = .ok b)
    (st n : Nat) : encodeScalars rom (elements t st n) = .ok (elements b st n) := by
  rw [encodeScalars_eq_ok_iff] at h ⊢
  rw [map_elements, h, map_elements]

theorem txtEncResult_of_absent (hp : r.txtP = false) :
    txtEncResult rom a1p a2p r = .error .invalidArgument := by
  simp [txtEncResult, hp]

theorem txtEncResult_of_not_sliceIs
    (hslice : ¬ ∃ st n, SliceIs r.txt.length a1p r.idx a2p r.len st n) :
    txtEncResult rom a1p a2p r = .error .invalidArgument := by
  simp [txtEncResult, sliceRange_of_not_sliceIs hslice]

theorem txtEncResult_of_sliceIs (hp : r.txtP = true)
    (hslice : SliceIs r.txt.length a1p r.idx a2p r.len st n) :
    txtEncResult rom a1p a2p r =
      (encodeScalars rom (elements r.txt st n)).map fun out => { obuf := out } := by
  simp only [txtEncResult, hp, sliceRange_of_sliceIs hslice]
  cases encodeScalars rom (elements r.txt st n) <;> rfl

theorem txtEncResult_of_encodeScalars {out : List Byte} (hp : r.txtP = true)
    (hslice : SliceIs r.txt.length a1p r.idx a2p r.len st n)
    (henc : encodeScalars rom (elements r.txt st n) = .ok out) :
    txtEncResult rom a1p a2p r = .ok { obuf := out } := by
  rw [txtEncResult_of_sliceIs hp hslice, henc]
  rfl

theorem txtEncResult_whole {out : List Byte} :
    txtEncResult rom false false r = .ok { obuf := out } ↔
      r.txtP = true ∧ encodeScalars rom r.txt = .ok out := by
  have hslice := sliceIs_whole r.txt.length r.idx r.len
  cases hp : r.txtP with
  | false => simp [txtEncResult_of_absent hp]
  | true =>
    rw [txtEncResult_of_sliceIs hp hslice, elements_whole]
    cases encodeScalars rom r.txt <;> simp [Except.map]

theorem txtDecResult_of_absent (hp : r.bufP = false) :
    txtDecResult rom a1p a2p r = .error .invalidArgument := by
  simp [txtDecResult, hp]

theorem txtDecResult_of_not_sliceIs
    (hslice : ¬ ∃ st n, SliceIs r.buf.length a1p r.idx a2p r.len st n) :
    txtDecResult rom a1p a2p r = .error .invalidArgument := by
  simp [txtDecResult, sliceRange_of_not_sliceIs hslice]

theorem txtDecResult_of_sliceIs (hp : r.bufP = true)
    (hslice : SliceIs r.buf.length a1p r.idx a2p r.len st n) :
    txtDecResult rom a1p a2p r = .ok { otxt := (elements r.buf st n).map (romRead rom) } := by
  simp [txtDecResult, hp, sliceRange_of_sliceIs hslice]

theorem txtDecResult_whole {out : List Scalar} :
    txtDecResult rom false false r = .ok { otxt := out } ↔
      r.bufP = true ∧ r.buf.map (romRead rom) = out := by
  have hslice := sliceIs_whole r.buf.length r.idx r.len
  cases hp : r.bufP with
  | false => simp [txtDecResult_of_absent hp]
  | true => simp [txtDecResult_of_sliceIs hp hslice, elements_whole]

end text

end Sys2Proof.Machine

namespace Sys2Proof.Proofs

open Sys2Proof.Machine

/-- Settles O21: the check of presence, the check of the slice, then the encoder over the slice. -/
theorem txtEncMapsTheSelectedScalars : Obligations.TxtEncMapsTheSelectedScalars := by
  refine ⟨by decide, by decide, by decide, fun s r rest a1p a2p hreq => ⟨fun hp => ?_,
    fun _ hnot => ?_, fun hp st n hslice => ⟨fun hunmapped => ?_, fun hmapped => ?_⟩⟩⟩
  · exact exec_of_result_error (.txtEnc a1p a2p) hreq (txtEncResult_of_absent hp)
  · exact exec_of_result_error (.txtEnc a1p a2p) hreq (txtEncResult_of_not_sliceIs hnot)
  · exact exec_of_result_error (.txtEnc a1p a2p) hreq
      (txtEncResult_of_unmappable hp hslice hunmapped)
  · obtain ⟨out, henc, hread⟩ := encodeScalars_of_mapped hmapped
    have hlen : out.length = n := by
      rw [← length_elements_of_sliceIs hslice, elements, ← hread, List.length_map]
    exact ⟨out, hlen, hread,
      exec_of_result_ok hreq (txtEncResult_of_encodeScalars hp hslice henc)⟩

/-- Settles O22: the check of presence, the check of the slice, then the table at each byte. -/
theorem txtDecReadsTheSelectedBytes : Obligations.TxtDecReadsTheSelectedBytes := by
  refine ⟨by decide, by decide, by decide, fun s r rest a1p a2p hreq => ⟨fun hp => ?_,
    fun _ hnot => ?_, fun hp st n hslice => ⟨_, ?_, fun k hk => ?_,
      exec_of_result_ok hreq (txtDecResult_of_sliceIs hp hslice)⟩⟩⟩
  · exact exec_of_result_error (.txtDec a1p a2p) hreq (txtDecResult_of_absent hp)
  · exact exec_of_result_error (.txtDec a1p a2p) hreq (txtDecResult_of_not_sliceIs hnot)
  · rw [List.length_map, length_elements_of_sliceIs hslice]
  · rw [List.getElem?_map, getElem?_elements hk]

/-- Settles O24: over the whole operand, the encoder and the table undo each other. -/
theorem textRoundTrips : Obligations.TextRoundTrips := by
  refine ⟨fun s r rest _ hreq hcmd hp hmapped => ?_, fun s r rest hrom hreq hcmd hp => ?_⟩
  · obtain ⟨b, henc, hread⟩ := encodeScalars_of_mapped hmapped
    refine ⟨b, step_of_result_ok (.txtEnc false false) hreq (hcmd ▸ rfl)
      (txtEncResult_whole.mpr ⟨hp, henc⟩), ?_⟩
    intro u r' rest' hu hreq' hcmd' hp' hbuf
    exact step_of_result_ok (.txtDec false false) hreq' (hcmd' ▸ rfl)
      (txtDecResult_whole.mpr ⟨hp', by rw [hbuf, hu, hread]⟩)
  · refine ⟨_, step_of_result_ok (.txtDec false false) hreq (hcmd ▸ rfl)
      (txtDecResult_whole.mpr ⟨hp, rfl⟩), ?_⟩
    intro u r' rest' hu hreq' hcmd' hp' htxt
    exact step_of_result_ok (.txtEnc false false) hreq' (hcmd' ▸ rfl)
      (txtEncResult_whole.mpr ⟨hp', by rw [htxt, hu, encodeScalars_map_romRead hrom]⟩)

/-- Settles O25: both conversions act on each element alone. -/
theorem slicingCommutesWithTheTextCodec : Obligations.SlicingCommutesWithTheTextCodec := by
  refine ⟨fun s u r r' rest rest' b st n hu hreq hreq' hcmd hcmd' hpeq htxt hstep hst hn hle => ?_,
    fun s u r r' rest rest' t st n hu hreq hreq' hcmd hcmd' hpeq hbuf hstep hst hn hle => ?_⟩
  · have hwhole := result_ok_of_step (.txtEnc false false) hreq (hcmd ▸ rfl) hstep rfl
    obtain ⟨hp, henc⟩ := txtEncResult_whole.mp hwhole
    have hslice : SliceIs r'.txt.length true r'.idx true r'.len st n :=
      ⟨hst.symm, hn.symm, htxt ▸ hle⟩
    exact step_of_result_ok (.txtEnc true true) hreq' (hcmd' ▸ rfl)
      (txtEncResult_of_encodeScalars (hpeq.trans hp) hslice
        (by rw [htxt, hu]; exact encodeScalars_elements henc st n))
  · have hwhole := result_ok_of_step (.txtDec false false) hreq (hcmd ▸ rfl) hstep rfl
    obtain ⟨hp, rfl⟩ := txtDecResult_whole.mp hwhole
    have hslice : SliceIs r'.buf.length true r'.idx true r'.len st n :=
      ⟨hst.symm, hn.symm, hbuf ▸ hle⟩
    have hresult := txtDecResult_of_sliceIs (rom := u.textRom) (hpeq.trans hp) hslice
    rw [hbuf, hu, map_elements] at hresult
    exact step_of_result_ok (.txtDec true true) hreq' (hcmd' ▸ rfl) (hu ▸ hresult)

end Sys2Proof.Proofs
end

section
/-! PROOFS. The statements of the hex-float codec (41_hexfloat_codec.md): `RoundF32`, HFP_ENC,
HFP_DEC, and their round trips. -/

namespace Sys2Proof.Machine

/-! ### Powers and signs -/

theorem exponent_lt {v : ℚ} {a b : ℤ} (h1 : (2 : ℚ) ^ a ≤ v) (h2 : v < 2 ^ b) : a < b :=
  (zpow_lt_zpow_iff_right₀ one_lt_two).mp (h1.trans_lt h2)

theorem sixteen_zpow (k : ℤ) : (16 : ℚ) ^ k = 2 ^ (4 * k) := by
  rw [zpow_mul]
  norm_num

theorem signFactor_inj {s t : Bool} : signFactor s = signFactor t ↔ s = t := by
  cases s <;> cases t <;> norm_num [signFactor]

/-! ### `RoundInt` between integers -/

section roundRat
variable {mode : Rounding} {q : ℚ} {n : ℤ}

theorem le_roundRat (h : (n : ℚ) ≤ q) : n ≤ roundRat mode q :=
  (Int.le_floor.mpr h).trans (floor_le_roundRat mode q)

theorem roundRat_le (h : q ≤ n) : roundRat mode q ≤ n := by
  rcases h.lt_or_eq with hlt | rfl
  · have hfloor := Int.floor_lt.mpr hlt
    have hround := roundRat_le_floor_add_one mode q
    omega
  · exact (roundRat_intCast mode n).le

end roundRat

/-! ### Patterns put together from fields -/

/-- The leading one of a 24-bit significand is not stored (41_hexfloat_codec.md R123). -/
theorem f32_fields_of_significand (s : Bool) {x : ℤ} {m : Nat} (hx0 : 0 ≤ x) (hx : x < 256)
    (hm : 2 ^ 23 ≤ m) (hm' : m < 2 ^ 24) {f : Word}
    (hf : f = BitVec.ofBool s ++ BitVec.ofInt 8 x ++ BitVec.ofNat 23 m) :
    f32Sign f = s ∧ (f32Exponent f : ℤ) = x ∧ (f32Fraction f : ℤ) = m - 2 ^ 23 := by
  have hm23 : BitVec.ofNat 23 m = BitVec.ofNat 23 (m - 2 ^ 23) := by
    apply BitVec.eq_of_toNat_eq
    rw [BitVec.toNat_ofNat, BitVec.toNat_ofNat]
    omega
  obtain ⟨hsign, hexp, hfrac⟩ := f32_fields s hx0 hx (by omega) (hm23 ▸ hf)
  exact ⟨hsign, hexp, by omega⟩

/-- A field below `2^23` is the fraction of a subnormal number or a zero. -/
theorem f32Exponent_of_field_lt (s : Bool) {fld : Nat} (h : fld < 2 ^ 23) :
    f32Exponent (BitVec.ofBool s ++ BitVec.ofNat 31 fld) = 0 := by
  have htoNat : (BitVec.ofBool s ++ BitVec.ofNat 31 fld : Word).toNat =
      (if s then 2 ^ 31 else 0) + fld := by
    rw [toNat_append_eq]
    cases s <;> simp <;> omega
  unfold f32Exponent
  rw [BitVec.extractLsb'_toNat, htoNat, Nat.shiftRight_eq_div_pow]
  split <;> omega

theorem ofBool_append_zero (s : Bool) :
    (BitVec.ofBool s ++ (0 : BitVec 31) : Word) = if s then 0x80000000 else 0x00000000 := by
  cases s <;> rfl

/-! ### `RoundF32` by cases -/

section roundF32
variable (s : Bool) {num den : Nat} {t : ℤ} (hn : 0 < num) (hd : 0 < den)
  (hlo : (2 : ℚ) ^ t ≤ (num : ℚ) / den) (hhi : (num : ℚ) / den < 2 ^ (t + 1))

include hlo hhi in
/-- The quotient that is rounded to the significand has 24 bits before the point. -/
theorem scaled_significand_bounds :
    (2 : ℚ) ^ 23 ≤ (num : ℚ) / den * 2 ^ (23 - t) ∧
      (num : ℚ) / den * 2 ^ (23 - t) < 2 ^ 24 := by
  have two : (2 : ℚ) ≠ 0 := by norm_num
  constructor
  · calc (2 : ℚ) ^ 23 = 2 ^ t * 2 ^ (23 - t) := by rw [← zpow_add₀ two, add_sub_cancel]; norm_num
      _ ≤ (num : ℚ) / den * 2 ^ (23 - t) := by gcongr
  · calc (num : ℚ) / den * 2 ^ (23 - t) < 2 ^ (t + 1) * 2 ^ (23 - t) := by gcongr
      _ = 2 ^ 24 := by
        rw [← zpow_add₀ two, show t + 1 + (23 - t) = (24 : ℕ) by push_cast; ring, zpow_natCast]

include hlo hhi in
theorem significand_bounds :
    2 ^ 23 ≤ roundRat .rne ((num : ℚ) / den * 2 ^ (23 - t)) ∧
      roundRat .rne ((num : ℚ) / den * 2 ^ (23 - t)) ≤ 2 ^ 24 := by
  obtain ⟨h1, h2⟩ := scaled_significand_bounds hlo hhi
  exact ⟨le_roundRat (by exact_mod_cast h1), roundRat_le (by exact_mod_cast h2.le)⟩

include hhi in
theorem field_bounds (ht : t < -126) :
    0 ≤ roundRat .rne ((num : ℚ) / den * 2 ^ (149 : ℤ)) ∧
      roundRat .rne ((num : ℚ) / den * 2 ^ (149 : ℤ)) ≤ 2 ^ 23 := by
  refine ⟨le_roundRat (by push_cast; positivity), roundRat_le ?_⟩
  calc (num : ℚ) / den * 2 ^ (149 : ℤ) ≤ 2 ^ (t + 1) * 2 ^ (149 : ℤ) := by gcongr
    _ ≤ 2 ^ (-126 : ℤ) * 2 ^ (149 : ℤ) := by
      gcongr
      · norm_num
      · omega
    _ = ((2 ^ 23 : ℤ) : ℚ) := by norm_num

include hn hd hlo hhi

theorem roundF32_of_overflow (ht : 127 < t) : roundF32 s num den = .error .overflow := by
  obtain ⟨sig, fld, -, -, heq⟩ := roundF32_eq s hn hd hlo hhi
  rw [heq, if_pos (by omega), if_pos (by split <;> omega)]

/-- Without a carry the exponent is the binade's. -/
theorem exists_roundF32_of_no_carry (ht : -126 ≤ t) (ht' : t ≤ 127)
    (hsig : roundRat .rne ((num : ℚ) / den * 2 ^ (23 - t)) < 2 ^ 24) :
    ∃ f, roundF32 s num den = .ok f ∧ f32Sign f = s ∧ (f32Exponent f : ℤ) = t + 127 ∧
      (f32Fraction f : ℤ) = roundRat .rne ((num : ℚ) / den * 2 ^ (23 - t)) - 2 ^ 23 := by
  obtain ⟨hlow, -⟩ := significand_bounds hlo hhi
  obtain ⟨sig, fld, hround, -, heq⟩ := roundF32_eq s hn hd hlo hhi
  rw [← hround] at hsig hlow ⊢
  have hne : sig ≠ 2 ^ 24 := by omega
  rw [if_pos ht, if_neg hne, if_neg (by omega), if_neg hne] at heq
  exact ⟨_, heq, f32_fields_of_significand s (by omega) (by omega) (by omega) (by omega) rfl⟩

/-- A carry out of the significand goes into the exponent. -/
theorem exists_roundF32_of_carry (ht : -126 ≤ t) (ht' : t + 1 ≤ 127)
    (hsig : roundRat .rne ((num : ℚ) / den * 2 ^ (23 - t)) = 2 ^ 24) :
    ∃ f, roundF32 s num den = .ok f ∧ f32Sign f = s ∧ (f32Exponent f : ℤ) = t + 1 + 127 ∧
      f32Fraction f = 0 := by
  obtain ⟨sig, fld, hround, -, heq⟩ := roundF32_eq s hn hd hlo hhi
  have hcarry : sig = 2 ^ 24 := by omega
  rw [if_pos ht, if_pos hcarry, if_neg (by omega), if_pos hcarry] at heq
  obtain ⟨hsign, hexp, hfrac⟩ := f32_fields_of_significand s (x := t + 1 + 127) (m := 2 ^ 23)
    (by omega) (by omega) le_rfl (by norm_num) rfl
  exact ⟨_, heq, hsign, hexp, by omega⟩

/-- A carry out of the greatest binade overflows. -/
theorem roundF32_of_carry_overflow (ht : -126 ≤ t) (ht' : 127 < t + 1)
    (hsig : roundRat .rne ((num : ℚ) / den * 2 ^ (23 - t)) = 2 ^ 24) :
    roundF32 s num den = .error .overflow := by
  obtain ⟨sig, fld, hround, -, heq⟩ := roundF32_eq s hn hd hlo hhi
  rw [heq, if_pos ht, if_pos (by split <;> omega)]

theorem roundF32_of_subnormal (ht : t < -126) :
    roundF32 s num den = .ok (BitVec.ofBool s ++
      BitVec.ofInt 31 (roundRat .rne ((num : ℚ) / den * 2 ^ (149 : ℤ)))) := by
  obtain ⟨sig, fld, -, hfld, heq⟩ := roundF32_eq s hn hd hlo hhi
  rw [heq, if_neg (by omega), ← hfld, BitVec.ofInt_natCast]

end roundF32

/-! ### The bytes of an HFP word -/

section word
variable {h0 h1 h2 h3 g0 g1 g2 g3 : Byte}

theorem hfpMantissa_eq (h1 h2 h3 : Byte) :
    hfpMantissa h1 h2 h3 = h1.toNat * 2 ^ 16 + h2.toNat * 2 ^ 8 + h3.toNat := by
  rw [hfpMantissa, toNat_append_eq, toNat_append_eq]
  ring

/-- The leading hex digit is `Mt[23:20]` (41_hexfloat_codec.md R122). -/
theorem isNormalized_iff : IsNormalized h1 ↔ 2 ^ 20 ≤ hfpMantissa h1 h2 h3 := by
  have hdigit : (highNibble h1).toNat = h1.toNat / 16 := by
    rw [highNibble, BitVec.extractLsb'_toNat, Nat.shiftRight_eq_div_pow]
    omega
  rw [IsNormalized, ne_eq, ← BitVec.toNat_inj, hdigit, hfpMantissa_eq,
    show BitVec.toNat (0 : Nibble) = 0 from rfl]
  omega

/-- The fields determine the word. -/
theorem hfp_ext (hs : hfpSign h0 = hfpSign g0) (hx : hfpExponent h0 = hfpExponent g0)
    (hm : hfpMantissa h1 h2 h3 = hfpMantissa g1 g2 g3) : [h0, h1, h2, h3] = [g0, g1, g2, g3] := by
  rw [hfpMantissa_eq, hfpMantissa_eq] at hm
  have e0 : h0 = g0 := BitVec.eq_of_toNat_eq (by rw [hfp_toNat, hfp_toNat, hs, hx])
  have e1 : h1 = g1 := BitVec.eq_of_toNat_eq (by omega)
  have e2 : h2 = g2 := BitVec.eq_of_toNat_eq (by omega)
  have e3 : h3 = g3 := BitVec.eq_of_toNat_eq (by omega)
  rw [e0, e1, e2, e3]

end word

/-! ### HFP_ENC -/

section encode
variable {mode : Rounding} {f : Word} {e : ℤ} {h0 h1 h2 h3 : Byte}

/-- The HFP word that stands for the float32 `f`, `e` being its exponent of 16 and the mantissa
rounded under `mode` (41_hexfloat_codec.md R125). -/
structure IsHfpOf (mode : Rounding) (f : Word) (e : ℤ) (h0 h1 h2 h3 : Byte) : Prop where
  sign       : hfpSign h0 = f32Sign f
  exponent   : (hfpExponent h0 : ℤ) = e + 64
  mantissa   : (hfpMantissa h1 h2 h3 : ℤ) = roundRat mode (|f32Value f| / 16 ^ e * 16 ^ 6)
  lower      : (16 : ℚ) ^ (e - 1) ≤ |f32Value f|
  upper      : |f32Value f| < 16 ^ e
  normalized : 2 ^ 20 ≤ hfpMantissa h1 h2 h3
  least      : -37 ≤ e
  greatest   : e ≤ 32
  inexact    : (∀ n : ℤ, |f32Value f| / 16 ^ e * 16 ^ 6 ≠ n) → hfpMantissa h1 h2 h3 ≤ 2 ^ 23

theorem f32Significand_pos (hf : IsNormal f ∨ IsSubnormal f) : 0 < f32Significand f := by
  unfold f32Significand
  rcases hf with ⟨hexp, -⟩ | ⟨hexp, hfrac⟩
  · rw [if_neg hexp]; omega
  · rw [if_pos hexp]; omega

/-- Every nonzero float32 lies between two powers of 16. -/
theorem exists_hfp_exponent (hf : IsNormal f ∨ IsSubnormal f) :
    ∃ e : ℤ, (16 : ℚ) ^ (e - 1) ≤ |f32Value f| ∧ |f32Value f| < 16 ^ e := by
  rw [abs_f32Value]
  exact ⟨_, hfp_exponent_bounds (f32Significand_pos hf) (f32Scale f)⟩

/-- HFP_ENC of a normal or subnormal number goes past the three special cases. -/
theorem hfpEncode_eq_hfpEncodeMagnitude (hf : IsNormal f ∨ IsSubnormal f) :
    hfpEncode mode f =
      hfpEncodeMagnitude mode (f32Sign f) (f32Significand f) (f32Scale f) := by
  unfold hfpEncode
  rcases hf with ⟨hexp, hexp'⟩ | ⟨hexp, hfrac⟩
  · rw [if_neg (by tauto), if_neg (by tauto), if_neg (by tauto)]
  · rw [if_neg (by omega), if_neg (by omega), if_neg (by tauto)]

theorem exists_hfpEncode_eq_ok (mode : Rounding) (hf : IsNormal f ∨ IsSubnormal f)
    (hlo : (16 : ℚ) ^ (e - 1) ≤ |f32Value f|) (hhi : |f32Value f| < 16 ^ e) :
    ∃ h0 h1 h2 h3, hfpEncode mode f = .ok [h0, h1, h2, h3] ∧ IsHfpOf mode f e h0 h1 h2 h3 := by
  have hfinite : f32Exponent f ≠ 0xFF := by rcases hf with ⟨-, h⟩ | ⟨h, -⟩ <;> omega
  obtain ⟨hscale, hscale'⟩ := f32Scale_bounds f hfinite
  obtain ⟨mt, hround, hmin, hmax, hemin, hemax, hexact, henc⟩ :=
    hfpEncodeMagnitude_spec mode (f32Sign f) (f32Significand_pos hf) (f32Significand_lt f)
      hscale hscale' (abs_f32Value f ▸ hlo) (abs_f32Value f ▸ hhi)
  obtain ⟨h0, h1, h2, h3, hbytes, hsign, hexp, hmant⟩ :=
    hfpBytes_fields (f32Sign f) (x := e + 64) (by omega) (by omega) hmax
  refine ⟨h0, h1, h2, h3, ?_, hsign, hexp, ?_, hlo, hhi, ?_, hemin, hemax, ?_⟩
  · rw [hfpEncode_eq_hfpEncodeMagnitude hf, henc, hbytes]
  · rw [hmant, hround, abs_f32Value]
  · rwa [hmant]
  · rwa [hmant, abs_f32Value]

theorem hfpEncode_of_isNaN (h : IsNaN f) : hfpEncode mode f = .error .invalidArgument := if_pos h

theorem hfpEncode_of_isInfinity (h : IsInfinity f) : hfpEncode mode f = .error .overflow := by
  unfold hfpEncode
  rw [if_neg fun hnan => hnan.2 h.2, if_pos h]

theorem hfpEncode_of_isZero (h : IsZero f) : hfpEncode mode f = .ok [0x00, 0x00, 0x00, 0x00] := by
  obtain ⟨hexp, hfrac⟩ := h
  unfold hfpEncode
  rw [if_neg (by omega), if_neg (by omega), if_pos ⟨hexp, hfrac⟩]

variable {r : Request}

theorem hfpEncResult_of_ok {out : List Byte} (h : hfpEncode mode r.arg0 = .ok out) :
    hfpEncResult mode r = .ok { obuf := out } := by rw [hfpEncResult, h]

theorem hfpEncResult_of_error {err : Error} (h : hfpEncode mode r.arg0 = .error err) :
    hfpEncResult mode r = .error err := by rw [hfpEncResult, h]

end encode

/-! ### The magnitude of an HFP word -/

section magnitude
variable {h0 h1 h2 h3 : Byte}

theorem abs_hfpValue_lt : |hfpValue h0 h1 h2 h3| < 2 ^ (4 * (hfpExponent h0 : ℤ) - 256) := by
  have hmant : (hfpMantissa h1 h2 h3 : ℚ) < 2 ^ 24 := by exact_mod_cast hfpMantissa_lt h1 h2 h3
  rw [abs_hfpValue]
  calc (hfpMantissa h1 h2 h3 : ℚ) * 2 ^ (4 * (hfpExponent h0 : ℤ) - 280)
      < 2 ^ 24 * 2 ^ (4 * (hfpExponent h0 : ℤ) - 280) := by gcongr
    _ = 2 ^ (4 * (hfpExponent h0 : ℤ) - 256) := by
      rw [← zpow_natCast, ← zpow_add₀ two_ne_zero]
      congr 1
      push_cast
      ring

theorem le_abs_hfpValue (hm : 2 ^ 20 ≤ hfpMantissa h1 h2 h3) :
    (2 : ℚ) ^ (4 * (hfpExponent h0 : ℤ) - 260) ≤ |hfpValue h0 h1 h2 h3| := by
  have hmant : (2 : ℚ) ^ 20 ≤ hfpMantissa h1 h2 h3 := by exact_mod_cast hm
  rw [abs_hfpValue]
  calc (2 : ℚ) ^ (4 * (hfpExponent h0 : ℤ) - 260)
      = 2 ^ 20 * 2 ^ (4 * (hfpExponent h0 : ℤ) - 280) := by
        rw [← zpow_natCast, ← zpow_add₀ two_ne_zero]
        congr 1
        push_cast
        ring
    _ ≤ (hfpMantissa h1 h2 h3 : ℚ) * 2 ^ (4 * (hfpExponent h0 : ℤ) - 280) := by gcongr

theorem hfpMantissa_ne_zero {v : ℚ} (hv : 0 < v) (h : v ≤ |hfpValue h0 h1 h2 h3|) :
    hfpMantissa h1 h2 h3 ≠ 0 := by
  intro hm
  rw [abs_hfpValue, hm, Nat.cast_zero, zero_mul] at h
  exact absurd h hv.not_ge

/-- Scaled up to at least its own unit, the magnitude is an integer. -/
theorem exists_int_eq_abs_hfpValue_mul (h0 h1 h2 h3 : Byte) {k : ℤ}
    (hk : 0 ≤ 4 * (hfpExponent h0 : ℤ) - 280 + k) :
    ∃ n : ℤ, |hfpValue h0 h1 h2 h3| * 2 ^ k = n := by
  obtain ⟨m, hm⟩ := Int.eq_ofNat_of_zero_le hk
  refine ⟨hfpMantissa h1 h2 h3 * 2 ^ m, ?_⟩
  rw [abs_hfpValue, mul_assoc, ← zpow_add₀ two_ne_zero, hm]
  push_cast
  rw [zpow_natCast]

/-- A normalized word is below `2^128` exactly up to exponent 96 (41_hexfloat_codec.md R128). -/
theorem abs_hfpValue_lt_overflow_iff (hm : 2 ^ 20 ≤ hfpMantissa h1 h2 h3) :
    |hfpValue h0 h1 h2 h3| < 2 ^ 128 ↔ hfpExponent h0 ≤ 96 := by
  rw [← zpow_natCast]
  constructor
  · intro h
    have hx := exponent_lt (le_abs_hfpValue hm) h
    omega
  · intro hx
    exact abs_hfpValue_lt.trans_le (zpow_le_zpow_right₀ one_le_two (by omega))

/-- A normalized word is below the normal range exactly by its exponent, and by its mantissa where
the exponent is 33 (41_hexfloat_codec.md R128). -/
theorem abs_hfpValue_lt_normal_iff (hm : 2 ^ 20 ≤ hfpMantissa h1 h2 h3) :
    |hfpValue h0 h1 h2 h3| < (2 : ℚ) ^ (-126 : ℤ) ↔
      hfpExponent h0 ≤ 32 ∨ (hfpExponent h0 = 33 ∧ hfpMantissa h1 h2 h3 < 0x400000) := by
  have h33 : hfpExponent h0 = 33 → (|hfpValue h0 h1 h2 h3| < (2 : ℚ) ^ (-126 : ℤ) ↔
      hfpMantissa h1 h2 h3 < 0x400000) := by
    intro hx
    rw [abs_hfpValue, hx, ← lt_div_iff₀ (by positivity)]
    norm_num
  constructor
  · intro h
    have hx := exponent_lt (le_abs_hfpValue hm) h
    rcases Nat.lt_or_ge (hfpExponent h0) 33 with hlt | hge
    · exact .inl (by omega)
    · have hx33 : hfpExponent h0 = 33 := by omega
      exact .inr ⟨hx33, (h33 hx33).mp h⟩
  · rintro (hx | ⟨hx, hlt⟩)
    · exact abs_hfpValue_lt.trans_le (zpow_le_zpow_right₀ one_le_two (by omega))
    · exact (h33 hx).mpr hlt

/-- Below the normal range the rounded field does not reach the exponent: it is exact from exponent
33 on, and small below. -/
theorem field_lt_of_abs_hfpValue_lt (h : |hfpValue h0 h1 h2 h3| < (2 : ℚ) ^ (-126 : ℤ)) :
    roundRat .rne (|hfpValue h0 h1 h2 h3| * 2 ^ (149 : ℤ)) < 2 ^ 23 := by
  rcases Nat.lt_or_ge (hfpExponent h0) 33 with hx | hx
  · have hle : |hfpValue h0 h1 h2 h3| * 2 ^ (149 : ℤ) ≤ ((2 ^ 21 : ℤ) : ℚ) := by
      calc |hfpValue h0 h1 h2 h3| * 2 ^ (149 : ℤ)
          ≤ 2 ^ (-128 : ℤ) * 2 ^ (149 : ℤ) := by
            gcongr
            exact abs_hfpValue_lt.le.trans (zpow_le_zpow_right₀ one_le_two (by omega))
        _ = ((2 ^ 21 : ℤ) : ℚ) := by norm_num
    exact (roundRat_le hle).trans_lt (by norm_num)
  · obtain ⟨n, hn⟩ := exists_int_eq_abs_hfpValue_mul h0 h1 h2 h3 (k := 149) (by omega)
    have hlt : |hfpValue h0 h1 h2 h3| * 2 ^ (149 : ℤ) < ((2 ^ 23 : ℤ) : ℚ) := by
      calc |hfpValue h0 h1 h2 h3| * 2 ^ (149 : ℤ) < 2 ^ (-126 : ℤ) * 2 ^ (149 : ℤ) := by gcongr
        _ = ((2 ^ 23 : ℤ) : ℚ) := by norm_num
    rw [hn] at hlt ⊢
    rw [roundRat_intCast]
    exact_mod_cast hlt

end magnitude

/-! ### `RoundF32` where nothing is rounded -/

theorem abs_f32Value_of_isNormal {f : Word} (hf : IsNormal f) :
    |f32Value f| = (2 ^ 23 + f32Fraction f) * (2 : ℚ) ^ ((f32Exponent f : ℤ) - 150) := by
  rw [abs_f32Value, f32Significand, f32Scale, if_neg hf.1, if_neg hf.1]
  push_cast
  rfl

/-- In the normal range, a magnitude of 24 significant bits is the magnitude of a float32. -/
theorem exists_roundF32_eq_of_exact (s : Bool) {num den : Nat} {t n : ℤ} (hn : 0 < num)
    (hd : 0 < den) (hlo : (2 : ℚ) ^ t ≤ (num : ℚ) / den) (hhi : (num : ℚ) / den < 2 ^ (t + 1))
    (ht : -126 ≤ t) (ht' : t ≤ 127) (hexact : (num : ℚ) / den * 2 ^ (23 - t) = n) :
    ∃ f, roundF32 s num den = .ok f ∧ IsNormal f ∧ f32Sign f = s ∧
      |f32Value f| = (num : ℚ) / den := by
  have hsig : roundRat .rne ((num : ℚ) / den * 2 ^ (23 - t)) = n := by
    rw [hexact, roundRat_intCast]
  have hlt : n < 2 ^ 24 := by
    have hscaled := (scaled_significand_bounds hlo hhi).2
    rw [hexact] at hscaled
    exact_mod_cast hscaled
  obtain ⟨f, hround, hsign, hexp, hfrac⟩ :=
    exists_roundF32_of_no_carry s hn hd hlo hhi ht ht' (hsig ▸ hlt)
  have hf : IsNormal f := ⟨by omega, by omega⟩
  refine ⟨f, hround, hf, hsign, ?_⟩
  have hfrac' : (2 : ℚ) ^ 23 + f32Fraction f = n := by
    have hint : 2 ^ 23 + (f32Fraction f : ℤ) = n := by omega
    exact_mod_cast hint
  rw [abs_f32Value_of_isNormal hf, hfrac', ← hexact, hexp, mul_assoc, ← zpow_add₀ two_ne_zero,
    show 23 - t + (t + 127 - 150) = 0 by ring, zpow_zero, mul_one]

/-! ### HFP_DEC -/

section decode
variable {h0 h1 h2 h3 : Byte}

/-- HFP_DEC of a nonzero mantissa is `RoundF32` of the magnitude, in some binade. -/
theorem exists_hfpDecode_eq_roundF32 (hm : hfpMantissa h1 h2 h3 ≠ 0) :
    ∃ (num den : Nat) (t : ℤ), 0 < num ∧ 0 < den ∧ (2 : ℚ) ^ t ≤ (num : ℚ) / den ∧
      (num : ℚ) / den < 2 ^ (t + 1) ∧ (num : ℚ) / den = |hfpValue h0 h1 h2 h3| ∧
      hfpDecode h0 h1 h2 h3 = roundF32 (hfpSign h0) num den := by
  have hn : 0 < scaleNum (hfpMantissa h1 h2 h3) (4 * (hfpExponent h0 : ℤ) - 280) := by
    unfold scaleNum
    have hpos := Nat.pos_of_ne_zero hm
    positivity
  have hd := scaleDen_pos one_pos (4 * (hfpExponent h0 : ℤ) - 280)
  obtain ⟨hlo, hhi⟩ := floorLog2_spec hn hd
  refine ⟨_, _, _, hn, hd, hlo, hhi, ?_, ?_⟩
  · rw [scale_eq, abs_hfpValue, Nat.cast_one, div_one]
  · unfold hfpDecode
    exact if_neg hm

theorem hfpDecode_of_mantissa_eq_zero (hm : hfpMantissa h1 h2 h3 = 0) :
    hfpDecode h0 h1 h2 h3 = .ok (if hfpSign h0 then 0x80000000 else 0x00000000) := by
  rw [← ofBool_append_zero]
  unfold hfpDecode
  exact if_pos hm

theorem hfpDecode_of_overflow (h : (2 : ℚ) ^ 128 ≤ |hfpValue h0 h1 h2 h3|) :
    hfpDecode h0 h1 h2 h3 = .error .overflow := by
  obtain ⟨num, den, t, hn, hd, hlo, hhi, hv, hdec⟩ :=
    exists_hfpDecode_eq_roundF32 (hfpMantissa_ne_zero (by norm_num) h)
  have ht : 128 < t + 1 := exponent_lt (by rw [hv]; exact_mod_cast h) hhi
  rw [hdec, roundF32_of_overflow _ hn hd hlo hhi (by omega)]

/-- In the normal range nothing is rounded: a mantissa has 24 bits. -/
theorem exists_hfpDecode_of_normal (hlow : (2 : ℚ) ^ (-126 : ℤ) ≤ |hfpValue h0 h1 h2 h3|)
    (hhigh : |hfpValue h0 h1 h2 h3| < 2 ^ 128) :
    ∃ f, hfpDecode h0 h1 h2 h3 = .ok f ∧ IsNormal f ∧ f32Sign f = hfpSign h0 ∧
      |f32Value f| = |hfpValue h0 h1 h2 h3| := by
  obtain ⟨num, den, t, hn, hd, hlo, hhi, hv, hdec⟩ :=
    exists_hfpDecode_eq_roundF32 (hfpMantissa_ne_zero (by positivity) hlow)
  have ht : -126 < t + 1 := exponent_lt hlow (hv ▸ hhi)
  have ht' : t < 128 := exponent_lt hlo (by rw [hv]; exact_mod_cast hhigh)
  have hunit : t < 4 * (hfpExponent h0 : ℤ) - 256 := exponent_lt hlo (hv ▸ abs_hfpValue_lt)
  obtain ⟨n, hexact⟩ := exists_int_eq_abs_hfpValue_mul h0 h1 h2 h3 (k := 23 - t) (by omega)
  rw [hdec, ← hv]
  exact exists_roundF32_eq_of_exact _ hn hd hlo hhi (by omega) (by omega) (hv ▸ hexact)

theorem hfpDecode_of_subnormal (hm : hfpMantissa h1 h2 h3 ≠ 0)
    (h : |hfpValue h0 h1 h2 h3| < (2 : ℚ) ^ (-126 : ℤ)) :
    hfpDecode h0 h1 h2 h3 = .ok (BitVec.ofBool (hfpSign h0) ++
      BitVec.ofInt 31 (roundRat .rne (|hfpValue h0 h1 h2 h3| * 2 ^ (149 : ℤ)))) := by
  obtain ⟨num, den, t, hn, hd, hlo, hhi, hv, hdec⟩ := exists_hfpDecode_eq_roundF32 (h0 := h0) hm
  have ht : t < -126 := exponent_lt hlo (hv ▸ h)
  rw [hdec, roundF32_of_subnormal _ hn hd hlo hhi ht, hv]

theorem f32Value_eq_hfpValue {f : Word} (hsign : f32Sign f = hfpSign h0)
    (habs : |f32Value f| = |hfpValue h0 h1 h2 h3|) : f32Value f = hfpValue h0 h1 h2 h3 :=
  calc f32Value f = signFactor (f32Sign f) * |f32Value f| := f32Value_eq f
    _ = signFactor (hfpSign h0) * |hfpValue h0 h1 h2 h3| := by rw [hsign, habs]
    _ = hfpValue h0 h1 h2 h3 := (hfpValue_eq h0 h1 h2 h3).symm

/-- Below `2^128` HFP_DEC succeeds, with exponent field 0 exactly below the normal range. -/
theorem exists_hfpDecode_of_lt (hm : hfpMantissa h1 h2 h3 ≠ 0)
    (h : |hfpValue h0 h1 h2 h3| < 2 ^ 128) :
    ∃ f, hfpDecode h0 h1 h2 h3 = .ok f ∧
      (f32Exponent f = 0 ↔ |hfpValue h0 h1 h2 h3| < (2 : ℚ) ^ (-126 : ℤ)) := by
  rcases lt_or_ge (|hfpValue h0 h1 h2 h3|) ((2 : ℚ) ^ (-126 : ℤ)) with hlt | hge
  · refine ⟨_, hfpDecode_of_subnormal hm hlt, iff_of_true ?_ hlt⟩
    have hfield := field_lt_of_abs_hfpValue_lt hlt
    have hnonneg : 0 ≤ roundRat .rne (|hfpValue h0 h1 h2 h3| * 2 ^ (149 : ℤ)) :=
      le_roundRat (by push_cast; positivity)
    obtain ⟨fld, hfld⟩ := Int.eq_ofNat_of_zero_le hnonneg
    rw [hfld] at hfield ⊢
    rw [BitVec.ofInt_natCast]
    exact f32Exponent_of_field_lt _ (by omega)
  · obtain ⟨f, hdec, hf, -⟩ := exists_hfpDecode_of_normal hge h
    exact ⟨f, hdec, iff_of_false hf.1 hge.not_gt⟩

end decode

section decResult
variable {a1p : Bool} {r : Request} {o : Nat} {h0 h1 h2 h3 : Byte} {f : Word}

theorem hfpDecResult_of_absent (hp : r.bufP = false) :
    hfpDecResult a1p r = .error .invalidArgument := by
  simp [hfpDecResult, hp]

theorem hfpDecResult_of_not_offsetIs (h : ¬ ∃ o, OffsetIs r.buf.length a1p r.idx 4 o) :
    hfpDecResult a1p r = .error .invalidArgument := by
  simp [hfpDecResult, sliceFixed_of_not_offsetIs h]

theorem byteAt_add {b w : List Byte} {n k : Nat} (h : elements b o n = w) (hk : k < n) :
    byteAt b (o + k) = w.getD k 0 := by
  rw [byteAt, List.getD_eq_getElem?_getD, List.getD_eq_getElem?_getD, ← h, getElem?_elements hk]

/-- HFP_DEC reads the four bytes at its offset. -/
theorem hfpDecResult_of_offsetIs (hp : r.bufP = true) (ho : OffsetIs r.buf.length a1p r.idx 4 o)
    (hbytes : elements r.buf o 4 = [h0, h1, h2, h3]) :
    hfpDecResult a1p r = (hfpDecode h0 h1 h2 h3).map fun f => { res := f } := by
  have e0 : byteAt r.buf o = h0 := byteAt_add hbytes (k := 0) (by norm_num)
  have e1 : byteAt r.buf (o + 1) = h1 := byteAt_add hbytes (by norm_num)
  have e2 : byteAt r.buf (o + 2) = h2 := byteAt_add hbytes (by norm_num)
  have e3 : byteAt r.buf (o + 3) = h3 := byteAt_add hbytes (by norm_num)
  simp only [hfpDecResult, hp, sliceFixed_of_offsetIs ho, e0, e1, e2, e3]
  cases hfpDecode h0 h1 h2 h3 <;> rfl

theorem hfpDecResult_of_ok (hp : r.bufP = true) (ho : OffsetIs r.buf.length a1p r.idx 4 o)
    (hbytes : elements r.buf o 4 = [h0, h1, h2, h3]) (hdec : hfpDecode h0 h1 h2 h3 = .ok f) :
    hfpDecResult a1p r = .ok { res := f } := by
  rw [hfpDecResult_of_offsetIs hp ho hbytes, hdec]
  rfl

theorem hfpDecResult_of_overflow (hp : r.bufP = true) (ho : OffsetIs r.buf.length a1p r.idx 4 o)
    (hbytes : elements r.buf o 4 = [h0, h1, h2, h3])
    (h : (2 : ℚ) ^ 128 ≤ |hfpValue h0 h1 h2 h3|) : hfpDecResult a1p r = .error .overflow := by
  rw [hfpDecResult_of_offsetIs hp ho hbytes, hfpDecode_of_overflow h]
  rfl

end decResult

/-! ### A normal number is determined by its value -/

section normal
variable {f g : Word}

theorem le_abs_f32Value_of_isNormal (hf : IsNormal f) : (2 : ℚ) ^ (-126 : ℤ) ≤ |f32Value f| := by
  have hexp := hf.1
  rw [abs_f32Value_of_isNormal hf]
  calc (2 : ℚ) ^ (-126 : ℤ) = 2 ^ 23 * 2 ^ (-149 : ℤ) := by norm_num
    _ ≤ (2 ^ 23 + f32Fraction f) * 2 ^ ((f32Exponent f : ℤ) - 150) := by
      gcongr
      · exact le_add_of_nonneg_right (Nat.cast_nonneg _)
      · norm_num
      · omega

theorem abs_f32Value_bounds_of_isNormal (hf : IsNormal f) :
    (2 : ℚ) ^ ((f32Exponent f : ℤ) - 127) ≤ |f32Value f| ∧
      |f32Value f| < 2 ^ ((f32Exponent f : ℤ) - 127 + 1) := by
  have hfrac : (f32Fraction f : ℚ) < 2 ^ 23 := by exact_mod_cast f32Fraction_lt f
  have hscale (k : ℤ) : (2 : ℚ) ^ ((f32Exponent f : ℤ) - 150 + k) =
      2 ^ k * 2 ^ ((f32Exponent f : ℤ) - 150) := by rw [add_comm, zpow_add₀ two_ne_zero]
  rw [abs_f32Value_of_isNormal hf,
    show (f32Exponent f : ℤ) - 127 = (f32Exponent f : ℤ) - 150 + 23 by ring, add_assoc, hscale,
    hscale]
  constructor
  · gcongr
    norm_num
  · gcongr
    exact (add_lt_add_right hfrac _).trans_eq (by norm_num)

theorem eq_of_f32Value_eq (hf : IsNormal f) (hg : IsNormal g) (h : f32Value f = f32Value g) :
    f = g := by
  have habs : |f32Value f| = |f32Value g| := congrArg abs h
  obtain ⟨flo, fhi⟩ := abs_f32Value_bounds_of_isNormal hf
  obtain ⟨glo, ghi⟩ := abs_f32Value_bounds_of_isNormal hg
  have hexp : f32Exponent f = f32Exponent g := by
    have hbinade := exponent_unique flo fhi (habs ▸ glo) (habs ▸ ghi)
    omega
  have hfrac : f32Fraction f = f32Fraction g := by
    rw [abs_f32Value_of_isNormal hf, abs_f32Value_of_isNormal hg, hexp] at habs
    exact_mod_cast add_left_cancel (mul_right_cancel₀ (by positivity) habs)
  have hsign : f32Sign f = f32Sign g := by
    have hpos : 0 < |f32Value g| := lt_of_lt_of_le (by positivity) glo
    rw [f32Value_eq f, f32Value_eq g, habs] at h
    exact signFactor_inj.mp (mul_right_cancel₀ hpos.ne' h)
  exact f32_ext hsign hexp hfrac

end normal

/-! ### Encode, then decode -/

theorem abs_hfpValue_base16 (h0 h1 h2 h3 : Byte) :
    |hfpValue h0 h1 h2 h3| =
      16 ^ ((hfpExponent h0 : ℤ) - 64) * ((hfpMantissa h1 h2 h3 : ℚ) / 16 ^ 6) := by
  unfold hfpValue
  rw [mul_assoc, abs_mul, abs_signFactor, one_mul, abs_of_nonneg (by positivity)]

namespace IsHfpOf

section
variable {mode : Rounding} {f : Word} {e : ℤ} {h0 h1 h2 h3 : Byte}
  (hof : IsHfpOf mode f e h0 h1 h2 h3)
include hof

theorem abs_hfpValue_eq :
    |hfpValue h0 h1 h2 h3| =
      (roundRat mode (|f32Value f| / 16 ^ e * 16 ^ 6) : ℚ) * (16 ^ e / 16 ^ 6) := by
  rw [abs_hfpValue_base16, hof.exponent, add_sub_cancel_right, ← hof.mantissa, Int.cast_natCast]
  ring

/-- The word and the float32 have the same sign. -/
theorem abs_sub_eq :
    |hfpValue h0 h1 h2 h3 - f32Value f| = |(|hfpValue h0 h1 h2 h3| - |f32Value f|)| := by
  rw [hfpValue_eq, f32Value_eq f, hof.sign, ← mul_sub, abs_mul, abs_signFactor, one_mul]
  simp only [abs_mul, abs_signFactor, one_mul, abs_abs]

/-- Half a unit of the mantissa is at most `2^-21` of the magnitude (41_hexfloat_codec.md R129). -/
theorem abs_hfpValue_sub_f32Value_le :
    |hfpValue h0 h1 h2 h3 - f32Value f| ≤ 2 ^ (-21 : ℤ) * |f32Value f| := by
  have hunit : (0 : ℚ) < 16 ^ e / 16 ^ 6 := by positivity
  set q : ℚ := |f32Value f| / 16 ^ e * 16 ^ 6 with hq
  have hqf : |f32Value f| = q * (16 ^ e / 16 ^ 6) := by
    rw [hq]
    field_simp
  rw [hof.abs_sub_eq, hof.abs_hfpValue_eq, ← hq]
  calc |((roundRat mode q : ℚ) * (16 ^ e / 16 ^ 6) - |f32Value f|)|
      = |(roundRat mode q : ℚ) - q| * (16 ^ e / 16 ^ 6) := by
        rw [hqf, ← sub_mul, abs_mul, abs_of_pos hunit]
    _ ≤ 1 / 2 * (16 ^ e / 16 ^ 6) := by gcongr; exact abs_roundRat_sub_le mode q
    _ = 2 ^ (-21 : ℤ) * 16 ^ (e - 1) := by
        rw [zpow_sub_one₀ (by norm_num)]
        norm_num
        ring
    _ ≤ 2 ^ (-21 : ℤ) * |f32Value f| := by gcongr; exact hof.lower

/-- Where nothing is rounded the word has the value of the float32. -/
theorem hfpValue_eq_f32Value {n : ℤ} (hexact : |f32Value f| / 16 ^ e * 16 ^ 6 = n) :
    hfpValue h0 h1 h2 h3 = f32Value f := by
  have habs : |f32Value f| = |hfpValue h0 h1 h2 h3| := by
    rw [hof.abs_hfpValue_eq, hexact, roundRat_intCast, ← hexact]
    field_simp
  exact (f32Value_eq_hfpValue hof.sign.symm habs).symm

/-- Rounding the mantissa does not leave the normal range: its lower end, `2^22` units of the
exponent `-31`, is itself a word (41_hexfloat_codec.md R128). -/
theorem le_abs_hfpValue_of_isNormal (hf : IsNormal f) :
    (2 : ℚ) ^ (-126 : ℤ) ≤ |hfpValue h0 h1 h2 h3| := by
  by_contra hlt
  have hexp := hof.exponent
  have hmin := le_abs_f32Value_of_isNormal hf
  have hrange := (abs_hfpValue_lt_normal_iff hof.normalized).mp (not_le.mp hlt)
  have he : -32 < e := by
    have hupper := hof.upper
    rw [sixteen_zpow] at hupper
    have hlt := exponent_lt hmin hupper
    omega
  have he31 : e = -31 := by omega
  have hmant : 2 ^ 22 ≤ (hfpMantissa h1 h2 h3 : ℤ) := by
    rw [hof.mantissa, he31]
    apply le_roundRat
    calc ((2 ^ 22 : ℤ) : ℚ) = 2 ^ (-126 : ℤ) / 16 ^ (-31 : ℤ) * 16 ^ 6 := by norm_num
      _ ≤ |f32Value f| / 16 ^ (-31 : ℤ) * 16 ^ 6 := by gcongr
  omega

theorem abs_hfpValue_lt_overflow : |hfpValue h0 h1 h2 h3| < 2 ^ 128 := by
  have hexp := hof.exponent
  have hmax := hof.greatest
  exact (abs_hfpValue_lt_overflow_iff hof.normalized).mpr (by omega)

/-- The word of a normal number decodes exactly. -/
theorem exists_hfpDecode (hf : IsNormal f) :
    ∃ y, hfpDecode h0 h1 h2 h3 = .ok y ∧ IsNormal y ∧ f32Value y = hfpValue h0 h1 h2 h3 := by
  obtain ⟨y, hdec, hy, hsign, habs⟩ :=
    exists_hfpDecode_of_normal (hof.le_abs_hfpValue_of_isNormal hf) hof.abs_hfpValue_lt_overflow
  exact ⟨y, hdec, hy, f32Value_eq_hfpValue hsign habs⟩

end

end IsHfpOf

/-! ### Decode, then encode -/

/-- Well inside the normal range a normalized word is its own nearest word. -/
theorem exists_hfpDecode_hfpEncode {h0 h1 h2 h3 : Byte} (hm : 2 ^ 20 ≤ hfpMantissa h1 h2 h3)
    (hx : 33 < hfpExponent h0) (hx' : hfpExponent h0 < 97) :
    ∃ f, hfpDecode h0 h1 h2 h3 = .ok f ∧ ∀ mode, hfpEncode mode f = .ok [h0, h1, h2, h3] := by
  have hlo := le_abs_hfpValue (h0 := h0) hm
  have hhi := abs_hfpValue_lt (h0 := h0) (h1 := h1) (h2 := h2) (h3 := h3)
  have hlow : (2 : ℚ) ^ (-126 : ℤ) ≤ |hfpValue h0 h1 h2 h3| :=
    (zpow_le_zpow_right₀ one_le_two (by omega)).trans hlo
  have hhigh : |hfpValue h0 h1 h2 h3| < 2 ^ 128 :=
    (abs_hfpValue_lt_overflow_iff hm).mpr (by omega)
  obtain ⟨f, hdec, hf, hsign, habs⟩ := exists_hfpDecode_of_normal hlow hhigh
  refine ⟨f, hdec, fun mode => ?_⟩
  have hlower : (16 : ℚ) ^ ((hfpExponent h0 : ℤ) - 64 - 1) ≤ |f32Value f| := by
    rw [habs, sixteen_zpow]
    exact (zpow_le_zpow_right₀ one_le_two (by omega)).trans hlo
  have hupper : |f32Value f| < (16 : ℚ) ^ ((hfpExponent h0 : ℤ) - 64) := by
    rw [habs, sixteen_zpow]
    exact hhi.trans_le (zpow_le_zpow_right₀ one_le_two (by omega))
  obtain ⟨g0, g1, g2, g3, henc, hof⟩ := exists_hfpEncode_eq_ok mode (.inl hf) hlower hupper
  have hmant : |f32Value f| / 16 ^ ((hfpExponent h0 : ℤ) - 64) * 16 ^ 6 =
      (hfpMantissa h1 h2 h3 : ℤ) := by
    rw [habs, abs_hfpValue_base16, Int.cast_natCast]
    field_simp
  rw [henc]
  refine congrArg Except.ok (hfp_ext (hof.sign.trans hsign) ?_ ?_)
  · have hexp := hof.exponent
    omega
  · have hround := hof.mantissa
    rw [hmant, roundRat_intCast] at hround
    exact_mod_cast hround

/-! ### The two commands in one step -/

section step
variable {s : State} {r : Request} {rest : List Request} {h0 h1 h2 h3 : Byte} {f : Word}

theorem step_hfpEnc_of_ok {out : List Byte} (hreq : s.requests = r :: rest)
    (hcmd : r.cmd = 0x00000010) (henc : hfpEncode s.params.hfpRound r.arg0 = .ok out) :
    step s = .next (answered s rest { obuf := out }) :=
  step_of_result_ok .hfpEnc hreq (hcmd ▸ rfl) (hfpEncResult_of_ok henc)

theorem step_hfpDec_of_ok (hreq : s.requests = r :: rest) (hcmd : r.cmd = 0x00000011)
    (hp : r.bufP = true) (hbuf : r.buf = [h0, h1, h2, h3])
    (hdec : hfpDecode h0 h1 h2 h3 = .ok f) : step s = .next (answered s rest { res := f }) := by
  have ho : OffsetIs r.buf.length false r.idx 4 0 := ⟨rfl, by simp [hbuf]⟩
  have hbytes : elements r.buf 0 4 = [h0, h1, h2, h3] := by rw [hbuf]; rfl
  exact step_of_result_ok (.hfpDec false) hreq (hcmd ▸ rfl) (hfpDecResult_of_ok hp ho hbytes hdec)

end step

end Sys2Proof.Machine

namespace Sys2Proof.Proofs

open Sys2Proof.Machine

/-- Settles O27: below `2^-126` the field is rounded, and from there on the significand, which has
24 bits or carries. -/
theorem roundF32RoundsOnce : Obligations.RoundF32RoundsOnce := by
  intro s num den t hn hd hlo hhi sig fld
  refine ⟨fun _ _ => roundF32_of_overflow s hn hd hlo hhi,
    fun hmin hsig hmax => roundF32_of_carry_overflow s hn hd hlo hhi hmin hmax hsig,
    fun hmin hsig hmax => exists_roundF32_of_no_carry s hn hd hlo hhi hmin hmax hsig,
    fun hmin hsig hmax => exists_roundF32_of_carry s hn hd hlo hhi hmin hmax hsig,
    fun _ => significand_bounds hlo hhi, fun hsub => ?_⟩
  obtain ⟨h0, h1⟩ := field_bounds hhi hsub
  exact ⟨h0, h1, roundF32_of_subnormal s hn hd hlo hhi hsub⟩

/-- Settles O28: the three special cases, and `IsHfpOf` for every other float32. -/
theorem hfpEncRoundsToSixHexDigits : Obligations.HfpEncRoundsToSixHexDigits := by
  refine ⟨by decide, fun s r rest hreq => ⟨fun hnan => ?_, fun hinf => ?_, fun hzero => ?_,
    fun hf e hlo hhi => ?_⟩⟩
  · exact exec_of_result_error .hfpEnc hreq (hfpEncResult_of_error (hfpEncode_of_isNaN hnan))
  · exact exec_of_result_error .hfpEnc hreq (hfpEncResult_of_error (hfpEncode_of_isInfinity hinf))
  · exact exec_of_result_ok (i := .hfpEnc) hreq (hfpEncResult_of_ok (hfpEncode_of_isZero hzero))
  · obtain ⟨h0, h1, h2, h3, henc, hof⟩ :=
      exists_hfpEncode_eq_ok s.params.hfpRound hf hlo hhi
    exact ⟨h0, h1, h2, h3, exec_of_result_ok (i := .hfpEnc) hreq (hfpEncResult_of_ok henc),
      hof.sign, hof.exponent, hof.mantissa⟩

/-- Settles O29: the ranges are those of `IsHfpOf`; the two extreme inputs are literals, and the
encoder computes. -/
theorem hfpEncOutputsAreNormalized : Obligations.HfpEncOutputsAreNormalized := by
  refine ⟨fun s r rest hreq hf => ?_, fun s r rest hreq => ⟨fun hleast => ?_, fun hgreatest => ?_⟩⟩
  · obtain ⟨e, hlo, hhi⟩ := exists_hfp_exponent hf
    obtain ⟨h0, h1, h2, h3, henc, hof⟩ :=
      exists_hfpEncode_eq_ok s.params.hfpRound hf hlo hhi
    have hexp := hof.exponent
    have hmin := hof.least
    have hmax := hof.greatest
    refine ⟨h0, h1, h2, h3, exec_of_result_ok (i := .hfpEnc) hreq (hfpEncResult_of_ok henc),
      by omega, by omega, isNormalized_iff.mpr hof.normalized, hof.normalized, fun hexact => ?_⟩
    rw [hexp, add_sub_cancel_right] at hexact
    exact hof.inexact hexact
  · have henc : hfpEncode s.params.hfpRound r.arg0 = .ok [0x1B, 0x80, 0x00, 0x00] := by
      rw [hleast]
      cases s.params.hfpRound <;> decide
    exact exec_of_result_ok (i := .hfpEnc) hreq (hfpEncResult_of_ok henc)
  · have henc : hfpEncode s.params.hfpRound r.arg0 = .ok [0x60, 0xFF, 0xFF, 0xFF] := by
      rw [hgreatest]
      cases s.params.hfpRound <;> decide
    exact exec_of_result_ok (i := .hfpEnc) hreq (hfpEncResult_of_ok henc)

/-- Settles O30: the checks of presence and of the offset, then the word's value by its range. -/
theorem hfpDecReconstructsTheValue : Obligations.HfpDecReconstructsTheValue := by
  refine ⟨by decide, by decide, fun s r rest a1p hreq => ⟨fun hp => ?_, fun _ hnot => ?_,
    fun hp o h0 h1 h2 h3 ho hbytes => ⟨fun hm => ?_, fun hover => ?_, fun hlow hhigh => ?_,
      fun hm hsub => ?_⟩⟩⟩
  · exact exec_of_result_error (.hfpDec a1p) hreq (hfpDecResult_of_absent hp)
  · exact exec_of_result_error (.hfpDec a1p) hreq (hfpDecResult_of_not_offsetIs hnot)
  · exact exec_of_result_ok (i := .hfpDec a1p) hreq
      (hfpDecResult_of_ok hp ho hbytes (hfpDecode_of_mantissa_eq_zero hm))
  · exact exec_of_result_error (.hfpDec a1p) hreq (hfpDecResult_of_overflow hp ho hbytes hover)
  · obtain ⟨f, hdec, hf, hsign, habs⟩ := exists_hfpDecode_of_normal hlow hhigh
    exact ⟨f, exec_of_result_ok (i := .hfpDec a1p) hreq (hfpDecResult_of_ok hp ho hbytes hdec),
      hf, f32Value_eq_hfpValue hsign habs⟩
  · exact exec_of_result_ok (i := .hfpDec a1p) hreq
      (hfpDecResult_of_ok hp ho hbytes (hfpDecode_of_subnormal hm hsub))

/-- Settles O31: a normalized word lies between `2^(4*X - 260)` and `2^(4*X - 256)`, which places it
against both ends of the normal range. -/
theorem hfpDecRangeOfNormalizedWords : Obligations.HfpDecRangeOfNormalizedWords := by
  intro s r rest a1p o h0 h1 h2 h3 hreq hp ho hbytes hnorm
  have hm : 2 ^ 20 ≤ hfpMantissa h1 h2 h3 := isNormalized_iff.mp hnorm
  have hover : |hfpValue h0 h1 h2 h3| < 2 ^ 128 ↔ hfpExponent h0 ≤ 96 :=
    abs_hfpValue_lt_overflow_iff hm
  rcases Nat.lt_or_ge (hfpExponent h0) 97 with hx | hx
  · obtain ⟨f, hdec, hsub⟩ := exists_hfpDecode_of_lt (by omega) (hover.mpr (by omega))
    exact ⟨_, exec_of_result_ok (i := .hfpDec a1p) hreq (hfpDecResult_of_ok hp ho hbytes hdec),
      iff_of_false (show (0 : BitVec 3) ≠ 2 by decide) (by omega), iff_of_true rfl (by omega),
      fun _ => hsub.trans (abs_hfpValue_lt_normal_iff hm)⟩
  · have hbig : (2 : ℚ) ^ 128 ≤ |hfpValue h0 h1 h2 h3| :=
      not_lt.mp fun hlt => by have hle := hover.mp hlt; omega
    exact ⟨_, exec_of_result_error (.hfpDec a1p) hreq (hfpDecResult_of_overflow hp ho hbytes hbig),
      iff_of_true rfl hx, iff_of_false (by decide) (by omega), fun h => absurd h (by decide)⟩

/-- Settles O32: only the encoder rounds, and by half a unit of a mantissa of at least `2^20`. -/
theorem hfpRoundTripPrecision : Obligations.HfpRoundTripPrecision := by
  intro s r rest hreq hcmd hx
  rcases hx with hnormal | hzero
  · obtain ⟨e, hlo, hhi⟩ := exists_hfp_exponent (.inl hnormal)
    obtain ⟨h0, h1, h2, h3, henc, hof⟩ :=
      exists_hfpEncode_eq_ok s.params.hfpRound (.inl hnormal) hlo hhi
    obtain ⟨y, hdec, hy, hvalue⟩ := hof.exists_hfpDecode hnormal
    have herr := hvalue ▸ hof.abs_hfpValue_sub_f32Value_le
    refine ⟨_, step_hfpEnc_of_ok hreq hcmd henc, fun u r' rest' hreq' hcmd' hp hbuf => ⟨y,
      step_hfpDec_of_ok hreq' hcmd' hp hbuf hdec, fun _ => ⟨.inl hy, herr, fun hle => ?_⟩,
      fun hz => absurd hz.1 hnormal.1⟩⟩
    calc |f32Value y - f32Value r.arg0| ≤ 2 ^ (-21 : ℤ) * |f32Value r.arg0| := herr
      _ ≤ 2 ^ (-21 : ℤ) * 100 := by gcongr
      _ < 1 / 10 ^ 4 := by norm_num
  · refine ⟨_, step_hfpEnc_of_ok hreq hcmd (hfpEncode_of_isZero hzero),
      fun u r' rest' hreq' hcmd' hp hbuf => ⟨_, step_hfpDec_of_ok hreq' hcmd' hp hbuf
        (hfpDecode_of_mantissa_eq_zero rfl), fun hnormal => absurd hzero.1 hnormal.1, fun _ => rfl⟩⟩

/-- Settles O33: the value is kept, and it determines a normal number and a normalized word. -/
theorem hfpExactRoundTrips : Obligations.HfpExactRoundTrips := by
  refine ⟨fun s r rest e n hreq hcmd hf hlo hhi hexact => ?_,
    fun s r rest h0 h1 h2 h3 hreq hcmd hp hbuf hnorm hx hx' => ?_,
    fun s r rest hreq hcmd hzero => ?_⟩
  · obtain ⟨h0, h1, h2, h3, henc, hof⟩ :=
      exists_hfpEncode_eq_ok s.params.hfpRound (.inl hf) hlo hhi
    obtain ⟨y, hdec, hy, hvalue⟩ := hof.exists_hfpDecode hf
    obtain rfl : y = r.arg0 :=
      eq_of_f32Value_eq hy hf (hvalue.trans (hof.hfpValue_eq_f32Value hexact))
    exact ⟨_, step_hfpEnc_of_ok hreq hcmd henc, fun u r' rest' hreq' hcmd' hp hbuf =>
      step_hfpDec_of_ok hreq' hcmd' hp hbuf hdec⟩
  · obtain ⟨f, hdec, henc⟩ := exists_hfpDecode_hfpEncode (isNormalized_iff.mp hnorm) hx hx'
    exact ⟨f, step_hfpDec_of_ok hreq hcmd hp hbuf hdec, fun u r' rest' hreq' hcmd' harg =>
      step_hfpEnc_of_ok hreq' hcmd' (harg ▸ henc _)⟩
  · have hz : IsZero r.arg0 := hzero ▸ ⟨rfl, rfl⟩
    exact ⟨_, step_hfpEnc_of_ok hreq hcmd (hfpEncode_of_isZero hz),
      fun u r' rest' hreq' hcmd' hp hbuf => step_hfpDec_of_ok hreq' hcmd' hp hbuf
        (hfpDecode_of_mantissa_eq_zero rfl)⟩

end Sys2Proof.Proofs
end

section
/-! PROOFS. The statements of the decimal codec (42_packed_decimal_codec.md): PD_ENC, PD_DEC and
ZD_DEC, the packed round trip, and the agreement of the two decoders. -/

namespace Sys2Proof.Machine

/-! ### Digit sequences -/

/-- The digit count of R152, as the library counts digits. -/
theorem length_digits (m : Nat) : (digits m).length = max 1 (Nat.digits 10 m).length := by
  obtain ⟨-, -, hpos, -, -⟩ := digits_spec m
  refine eq_of_forall_ge_iff fun k => ?_
  rcases Nat.eq_zero_or_pos k with rfl | hk
  · omega
  · rw [digits_length_le_iff hk, max_le_iff, Nat.digits_length_le_iff (by norm_num)]
    exact (and_iff_right hk).symm

theorem valueOfDigits_map_range (f : Nat → Nibble) (n : Nat) :
    valueOfDigits ((List.range n).map f) =
      ∑ k ∈ Finset.range n, (f k).toNat * 10 ^ (n - 1 - k) := by
  rw [valueOfDigits_eq_sum, List.length_map, List.length_range]
  refine Finset.sum_congr rfl fun k hk => ?_
  rw [List.getD_eq_getElem _ _ (by simpa using hk), List.getElem_map, List.getElem_range]

/-! ### The nibbles and the bytes of an operand -/

theorem byteAt_elements_zero {b : List Byte} {l k : Nat} (hk : k < l) :
    byteAt (elements b 0 l) k = byteAt b k :=
  calc byteAt (elements b 0 l) k = byteAt b (0 + k) := (byteAt_add rfl hk).symm
    _ = byteAt b k := by rw [Nat.zero_add]

theorem nibbleAt_elements_zero {b : List Byte} {l k : Nat} (hk : k < 2 * l) :
    nibbleAt (elements b 0 l) k = nibbleAt b k := by
  simp only [nibbleAt, byteAt_elements_zero (show k / 2 < l by omega)]

theorem nibblesOf_elements_zero {b : List Byte} {l : Nat} (hl : l ≤ b.length) :
    nibblesOf (elements b 0 l) = (List.range (2 * l)).map (nibbleAt b) := by
  refine List.ext_getElem (by simp; omega) fun k h _ => ?_
  have hk : k < 2 * l := by simp at h; omega
  rw [← List.getD_eq_getElem _ 0 h, getD_nibblesOf, nibbleAt_elements_zero hk, List.getElem_map,
    List.getElem_range]

/-- The digits of a packed operand of `l` bytes, then its sign (R150). -/
theorem nibblesOf_elements_zero_eq_append {b : List Byte} {l : Nat} (hpos : 0 < l)
    (hl : l ≤ b.length) :
    nibblesOf (elements b 0 l) =
      (List.range (2 * l - 1)).map (nibbleAt b) ++ [nibbleAt b (2 * l - 1)] := by
  rw [nibblesOf_elements_zero hl, show 2 * l = 2 * l - 1 + 1 by omega, List.range_succ]
  simp

theorem map_lowNibble_eq_map_range (b : List Byte) :
    b.map lowNibble = (List.range b.length).map fun k => lowNibble (byteAt b k) := by
  refine List.ext_getElem (by simp) fun k h _ => ?_
  have hk : k < b.length := by simpa using h
  simp [byteAt, hk]

theorem getLastD_eq_byteAt {b : List Byte} : b.getLastD 0 = byteAt b (b.length - 1) := by
  rw [byteAt, List.getLastD_eq_getLast?, List.getLast?_eq_getElem?, List.getD_eq_getElem?_getD]

/-! ### The checks the two decoders share -/

section decimalResult
variable {neg : Bool} {d : List Nibble} {scale : Byte}

theorem decimalResult_of_not_digit (h : ∃ x ∈ d, 9 < x.toNat) :
    decimalResult neg d scale = .error .invalidArgument := by
  obtain ⟨x, hx, hbig⟩ := h
  have hnot : ¬ allDigits d = true := fun hall => by have := allDigits_iff.mp hall x hx; omega
  simp [decimalResult, hnot]

theorem decimalResult_of_overflow (hd : ∀ x ∈ d, x.toNat ≤ 9) (h : 2 ^ 96 ≤ valueOfDigits d) :
    decimalResult neg d scale = .error .overflow := by
  unfold decimalResult
  rw [allDigits_iff.mpr hd]
  exact if_pos h

theorem decimalResult_of_lt (hd : ∀ x ∈ d, x.toNat ≤ 9) (h : valueOfDigits d < 2 ^ 96) :
    decimalResult neg d scale =
      .ok { rneg := neg, rmag := BitVec.ofNat 96 (valueOfDigits d), rscale := scale } := by
  unfold decimalResult
  rw [allDigits_iff.mpr hd]
  exact if_neg (not_le.mpr h)

/-- Padding a field with zeros changes neither check. -/
theorem decimalResult_replicate_append (pad : Nat) :
    decimalResult neg (List.replicate pad 0 ++ d) scale = decimalResult neg d scale := by
  have hall : allDigits (List.replicate pad 0 ++ d) = allDigits d := by simp [allDigits]
  rw [decimalResult, hall, valueOfDigits_replicate_append, decimalResult]

end decimalResult

/-! ### Sign nibbles -/

section sign
variable {p : Params} {n : Nibble}

theorem packedSign_of_mem (h : n ∈ p.pdPosAccept ∨ n ∈ p.pdNegAccept) :
    packedSign p n = .ok (decide (n ∉ p.pdPosAccept)) := by
  by_cases hpos : n ∈ p.pdPosAccept
  · simp [packedSign, hpos]
  · simp [packedSign, hpos, h.resolve_left hpos]

theorem packedSign_of_not_mem (h : ¬ (n ∈ p.pdPosAccept ∨ n ∈ p.pdNegAccept)) :
    packedSign p n = .error .invalidArgument := by
  obtain ⟨hpos, hneg⟩ := not_or.mp h
  simp [packedSign, hpos, hneg]

theorem zonedSign_of_mem (h : n ∈ p.pdNegAccept ∨ n ∈ p.pdPosAccept ∨ n ∈ p.zdPosExtra) :
    zonedSign p n = .ok (decide (n ∈ p.pdNegAccept)) := by
  by_cases hneg : n ∈ p.pdNegAccept
  · simp [zonedSign, hneg]
  · simp [zonedSign, hneg, h.resolve_left hneg]

theorem zonedSign_of_not_mem (h : ¬ (n ∈ p.pdNegAccept ∨ n ∈ p.pdPosAccept ∨ n ∈ p.zdPosExtra)) :
    zonedSign p n = .error .invalidArgument := by
  obtain ⟨hneg, hpos⟩ := not_or.mp h
  simp [zonedSign, hneg, hpos]

/-- The order of the two decoders' checks does not matter: the accepted sets are disjoint (R9). -/
theorem zonedSign_eq_packedSign (hp : p.Admissible) (h : n ∈ p.pdPosAccept ∨ n ∈ p.pdNegAccept) :
    zonedSign p n = packedSign p n := by
  have hmem : n ∈ p.pdNegAccept ↔ n ∉ p.pdPosAccept :=
    ⟨fun hneg hpos => hp.disjoint n hpos hneg, h.resolve_left⟩
  rw [packedSign_of_mem h, zonedSign_of_mem (h.symm.imp_right .inl), decide_eq_decide.mpr hmem]

/-- The nibble PD_ENC writes for a sign (R153). -/
def signNibble (p : Params) (neg : Bool) : Nibble := if neg then p.pdNegSign else p.pdPosSign

theorem packedSign_signNibble (hp : p.Admissible) (neg : Bool) :
    packedSign p (signNibble p neg) = .ok neg := by
  cases neg with
  | false =>
    have hmem : signNibble p false ∈ p.pdPosAccept := hp.posSign
    simp [packedSign, hmem]
  | true =>
    have hmem : signNibble p true ∈ p.pdNegAccept := hp.negSign
    have hnot : signNibble p true ∉ p.pdPosAccept := fun hpos => hp.disjoint _ hpos hmem
    simp [packedSign, hmem, hnot]

end sign

/-! ### PD_ENC -/

section pdEnc
variable {p : Params} {r : Request}

/-- The digits of `m`, filled with zeros on the left up to the sign of a field of `l` bytes
(R154). -/
def paddedDigits (l m : Nat) : List Nibble :=
  List.replicate (2 * l - 1 - (digits m).length) 0 ++ digits m

theorem length_paddedDigits {l m : Nat} (h : (digits m).length + 1 ≤ 2 * l) :
    (paddedDigits l m).length = 2 * l - 1 := by
  rw [paddedDigits, List.length_append, List.length_replicate]
  omega

theorem toNat_le_nine_of_mem_paddedDigits {l m : Nat} :
    ∀ x ∈ paddedDigits l m, x.toNat ≤ 9 := by
  obtain ⟨hdigits, -⟩ := digits_spec m
  intro x hx
  rcases List.mem_append.mp hx with hzero | hdigit
  · simp [List.eq_of_mem_replicate hzero]
  · exact hdigits x hdigit

theorem valueOfDigits_paddedDigits (l m : Nat) : valueOfDigits (paddedDigits l m) = m := by
  obtain ⟨-, hvalue, -⟩ := digits_spec m
  rw [paddedDigits, valueOfDigits_replicate_append, hvalue]

/-- The sign PD_ENC writes: negative for a negative nonzero value only (R153). -/
def writtenNeg (r : Request) : Bool := decide (r.dneg = true ∧ r.dmag.toNat ≠ 0)

theorem writtenNeg_eq_dneg (h : r.dmag ≠ 0) : writtenNeg r = r.dneg := by
  have hm : r.dmag.toNat ≠ 0 := fun h0 => h (BitVec.eq_of_toNat_eq h0)
  simp [writtenNeg, hm]

theorem writtenNeg_of_zero (h : r.dmag = 0) : writtenNeg r = false := by simp [writtenNeg, h]

/-- A zero has the same value with either sign (R151). -/
theorem decimalValue_writtenNeg (r : Request) (scale : Byte) :
    decimalValue (writtenNeg r) r.dmag scale = decimalValue r.dneg r.dmag scale := by
  by_cases h : r.dmag = 0
  · simp [decimalValue, h]
  · rw [writtenNeg_eq_dneg h]

/-- The nibbles of the field PD_ENC writes (R154). -/
def writtenNibbles (p : Params) (r : Request) : List Nibble :=
  paddedDigits r.blen.toNat r.dmag.toNat ++ [signNibble p (writtenNeg r)]

theorem pdEncResult_of_overflow (h : 2 * r.blen.toNat < (digits r.dmag.toNat).length + 1) :
    pdEncResult p r = .error .overflow := if_pos h

section fits
variable (h : (digits r.dmag.toNat).length + 1 ≤ 2 * r.blen.toNat)
include h

theorem pdEncResult_of_fits :
    pdEncResult p r = .ok { obuf := bytesOfNibbles (writtenNibbles p r) } := by
  rw [pdEncResult, if_neg (not_lt.mpr h)]
  simp only [writtenNibbles, paddedDigits, signNibble, writtenNeg, decide_eq_true_eq]

theorem length_writtenNibbles : (writtenNibbles p r).length = 2 * r.blen.toNat := by
  rw [writtenNibbles, List.length_append, length_paddedDigits h, List.length_singleton]
  omega

theorem nibblesOf_written :
    nibblesOf (bytesOfNibbles (writtenNibbles p r)) = writtenNibbles p r :=
  nibblesOf_bytesOfNibbles (length_writtenNibbles h)

theorem nibbleAt_written_digit {k : Nat} (hk : k < 2 * r.blen.toNat - 1) :
    (nibbleAt (bytesOfNibbles (writtenNibbles p r)) k).toNat =
      r.dmag.toNat / 10 ^ (2 * r.blen.toNat - 2 - k) % 10 := by
  have hlen := length_paddedDigits h
  have hk' := hlen.symm ▸ hk
  rw [← getD_nibblesOf, nibblesOf_written h, writtenNibbles, List.getD_append _ _ _ _ hk',
    getD_eq_of_value toNat_le_nine_of_mem_paddedDigits hk', valueOfDigits_paddedDigits, hlen]
  rfl

theorem nibbleAt_written_sign :
    nibbleAt (bytesOfNibbles (writtenNibbles p r)) (2 * r.blen.toNat - 1) =
      signNibble p (writtenNeg r) := by
  have hlen := length_paddedDigits h
  rw [← getD_nibblesOf, nibblesOf_written h, writtenNibbles,
    List.getD_append_right _ _ _ _ hlen.le, hlen, Nat.sub_self, List.getD_cons_zero]

end fits

end pdEnc

/-! ### PD_DEC -/

section pdDec
variable {p : Params} {r : Request} {d : List Nibble} {sg : Nibble}

theorem pdDecResult_of_unreadable
    (h : ¬ (r.bufP = true ∧ 0 < r.blen.toNat ∧ r.blen.toNat ≤ r.buf.length)) :
    pdDecResult p r = .error .invalidArgument := by
  unfold pdDecResult
  dsimp only
  split
  · rfl
  · next hp =>
    split
    · rfl
    · next hpos =>
      have hp' : r.bufP = true := by simpa using hp
      exact if_pos (not_le.mp fun hl => h ⟨hp', Nat.pos_of_ne_zero hpos, hl⟩)

/-- PD_DEC on a field that is there: the last nibble is the sign, the others are the digits. -/
theorem pdDecResult_of_nibbles (hp : r.bufP = true) (hl : r.blen.toNat ≤ r.buf.length)
    (hn : nibblesOf (elements r.buf 0 r.blen.toNat) = d ++ [sg]) :
    pdDecResult p r = (packedSign p sg).bind fun neg => decimalResult neg d r.scale := by
  have hpos : r.blen.toNat ≠ 0 := fun h0 => by simp [h0, elements] at hn
  simp only [pdDecResult, hp, hn, hpos, not_lt.mpr hl, List.getLastD_concat, List.dropLast_concat]
  cases packedSign p sg <;> rfl

theorem pdDecResult_of_readable (hp : r.bufP = true) (hpos : 0 < r.blen.toNat)
    (hl : r.blen.toNat ≤ r.buf.length) :
    pdDecResult p r = (packedSign p (nibbleAt r.buf (2 * r.blen.toNat - 1))).bind fun neg =>
      decimalResult neg ((List.range (2 * r.blen.toNat - 1)).map (nibbleAt r.buf)) r.scale :=
  pdDecResult_of_nibbles hp hl (nibblesOf_elements_zero_eq_append hpos hl)

theorem pdDecResult_of_sign_not_mem
    (h : ¬ (nibbleAt r.buf (2 * r.blen.toNat - 1) ∈ p.pdPosAccept ∨
      nibbleAt r.buf (2 * r.blen.toNat - 1) ∈ p.pdNegAccept)) :
    pdDecResult p r = .error .invalidArgument := by
  by_cases hread : r.bufP = true ∧ 0 < r.blen.toNat ∧ r.blen.toNat ≤ r.buf.length
  · obtain ⟨hp, hpos, hl⟩ := hread
    rw [pdDecResult_of_readable hp hpos hl, packedSign_of_not_mem h]
    rfl
  · exact pdDecResult_of_unreadable hread

/-- A nibble that is no digit is InvalidArgument whatever the other checks say. -/
theorem pdDecResult_of_not_digit
    (h : ∃ k < 2 * r.blen.toNat - 1, 9 < (nibbleAt r.buf k).toNat) :
    pdDecResult p r = .error .invalidArgument := by
  by_cases hread : r.bufP = true ∧ 0 < r.blen.toNat ∧ r.blen.toNat ≤ r.buf.length
  · by_cases hsg : nibbleAt r.buf (2 * r.blen.toNat - 1) ∈ p.pdPosAccept ∨
        nibbleAt r.buf (2 * r.blen.toNat - 1) ∈ p.pdNegAccept
    · obtain ⟨hp, hpos, hl⟩ := hread
      obtain ⟨k, hk, hbig⟩ := h
      rw [pdDecResult_of_readable hp hpos hl, packedSign_of_mem hsg]
      exact decimalResult_of_not_digit ⟨_, List.mem_map_of_mem (List.mem_range.mpr hk), hbig⟩
    · exact pdDecResult_of_sign_not_mem hsg
  · exact pdDecResult_of_unreadable hread

/-- PD_DEC of what PD_ENC wrote, under the length it was written with. -/
theorem pdDecResult_of_written {r' : Request} (hadm : p.Admissible)
    (hfits : (digits r.dmag.toNat).length + 1 ≤ 2 * r.blen.toNat) (hp : r'.bufP = true)
    (hbuf : r'.buf = bytesOfNibbles (writtenNibbles p r)) (hblen : r'.blen = r.blen) :
    pdDecResult p r' = .ok { rneg := writtenNeg r, rmag := r.dmag, rscale := r'.scale } := by
  have hlen : r'.buf.length = r'.blen.toNat := by
    rw [hbuf, hblen, length_bytesOfNibbles (length_writtenNibbles hfits)]
  have hfield : nibblesOf (elements r'.buf 0 r'.blen.toNat) =
      paddedDigits r.blen.toNat r.dmag.toNat ++ [signNibble p (writtenNeg r)] := by
    rw [← hlen, elements_whole, hbuf, nibblesOf_written hfits, writtenNibbles]
  have hvalue := valueOfDigits_paddedDigits r.blen.toNat r.dmag.toNat
  rw [pdDecResult_of_nibbles hp hlen.ge hfield, packedSign_signNibble hadm]
  refine (decimalResult_of_lt toNat_le_nine_of_mem_paddedDigits
    (hvalue.trans_lt r.dmag.isLt)).trans ?_
  rw [hvalue, BitVec.ofNat_toNat, BitVec.setWidth_eq]

end pdDec

/-! ### ZD_DEC -/

section zdDec
variable {p : Params} {r : Request}

theorem zdDecResult_of_unreadable (h : ¬ (r.bufP = true ∧ 0 < r.buf.length)) :
    zdDecResult p r = .error .invalidArgument := by
  unfold zdDecResult
  split
  · rfl
  · next hp =>
    have hp' : r.bufP = true := by simpa using hp
    exact if_pos (Nat.eq_zero_of_not_pos fun hpos => h ⟨hp', hpos⟩)

theorem zdDecResult_of_readable (hp : r.bufP = true) (hpos : 0 < r.buf.length) :
    zdDecResult p r = (zonedSign p (highNibble (r.buf.getLastD 0))).bind fun neg =>
      decimalResult neg (r.buf.map lowNibble) r.scale := by
  simp only [zdDecResult, hp, hpos.ne']
  cases zonedSign p (highNibble (r.buf.getLastD 0)) <;> rfl

theorem zdDecResult_of_sign_not_mem
    (h : ¬ (highNibble (r.buf.getLastD 0) ∈ p.pdNegAccept ∨
      highNibble (r.buf.getLastD 0) ∈ p.pdPosAccept ∨
      highNibble (r.buf.getLastD 0) ∈ p.zdPosExtra)) :
    zdDecResult p r = .error .invalidArgument := by
  by_cases hread : r.bufP = true ∧ 0 < r.buf.length
  · obtain ⟨hp, hpos⟩ := hread
    rw [zdDecResult_of_readable hp hpos, zonedSign_of_not_mem h]
    rfl
  · exact zdDecResult_of_unreadable hread

/-- A low nibble that is no digit is InvalidArgument whatever the other checks say. -/
theorem zdDecResult_of_not_digit (h : ∃ x ∈ r.buf.map lowNibble, 9 < x.toNat) :
    zdDecResult p r = .error .invalidArgument := by
  by_cases hread : r.bufP = true ∧ 0 < r.buf.length
  · by_cases hzone : highNibble (r.buf.getLastD 0) ∈ p.pdNegAccept ∨
        highNibble (r.buf.getLastD 0) ∈ p.pdPosAccept ∨
        highNibble (r.buf.getLastD 0) ∈ p.zdPosExtra
    · obtain ⟨hp, hpos⟩ := hread
      rw [zdDecResult_of_readable hp hpos, zonedSign_of_mem hzone]
      exact decimalResult_of_not_digit h
    · exact zdDecResult_of_sign_not_mem hzone
  · exact zdDecResult_of_unreadable hread

end zdDec

/-- A legal request is answered by how its command's pseudocode ends. -/
theorem step_of_decode {s : State} {r : Request} {rest : List Request} (i : Instr)
    (hreq : s.requests = r :: rest) (hd : decode r.cmd = .ok i) :
    step s = .next (answered s rest (finish (resultOf s.textRom s.params i r))) :=
  (step_decoded hreq hd).trans (exec_cons hreq i)

end Sys2Proof.Machine

namespace Sys2Proof.Proofs

open Sys2Proof.Machine

/-- Settles O34: the padded digits keep the value, so each can be read off it. -/
theorem pdEncWritesDigitsThenSign : Obligations.PdEncWritesDigitsThenSign := by
  refine ⟨by decide, fun s r rest hreq => ?_⟩
  dsimp only
  rw [← length_digits]
  refine ⟨fun hover => ?_, fun hfits => ⟨_,
    exec_of_result_ok (i := .pdEnc) hreq (pdEncResult_of_fits hfits),
    length_bytesOfNibbles (length_writtenNibbles hfits),
    fun k hk => nibbleAt_written_digit hfits hk, ?_⟩⟩
  · exact exec_of_result_error .pdEnc hreq (pdEncResult_of_overflow hover)
  · simp only [nibbleAt_written_sign hfits, signNibble, writtenNeg, decide_eq_true_eq]

/-- Settles O35: the checks of the operand, of the sign, of the digits and of the width, in turn. -/
theorem pdDecReadsDigitsThenSign : Obligations.PdDecReadsDigitsThenSign := by
  refine ⟨by decide, fun s r rest hreq => ?_⟩
  extract_lets l sg m
  refine ⟨fun hreject => exec_of_result_error .pdDec hreq (e := .invalidArgument) ?_,
    fun hp hpos hl hsg hdigits => ?_⟩
  · rcases hreject with habsent | hzero | hshort | hsign | hdigit
    · exact pdDecResult_of_unreadable fun ⟨hp, _, _⟩ => by simp [habsent] at hp
    · exact pdDecResult_of_unreadable fun ⟨_, hpos, _⟩ => hpos.ne' hzero
    · exact pdDecResult_of_unreadable fun ⟨_, _, hl⟩ => hshort.not_ge hl
    · exact pdDecResult_of_sign_not_mem (not_or.mpr hsign)
    · exact pdDecResult_of_not_digit hdigit
  · have hresult := pdDecResult_of_readable (p := s.params) hp hpos hl
    rw [packedSign_of_mem hsg] at hresult
    have hd : ∀ x ∈ (List.range (2 * l - 1)).map (nibbleAt r.buf), x.toNat ≤ 9 := by
      simpa using hdigits
    have hm : valueOfDigits ((List.range (2 * l - 1)).map (nibbleAt r.buf)) = m :=
      valueOfDigits_map_range _ _
    refine ⟨fun hbig => ?_, fun hlt => ?_⟩
    · exact exec_of_result_error .pdDec hreq
        (hresult.trans (decimalResult_of_overflow hd (hm ▸ hbig)))
    · exact exec_of_result_ok (i := .pdDec) hreq
        (hresult.trans (hm ▸ decimalResult_of_lt hd (hm.symm ▸ hlt)))

/-- Settles O36: the checks of the operand, of the final zone, of the digits and of the width, in
turn. -/
theorem zdDecReadsDigitsAndFinalZone : Obligations.ZdDecReadsDigitsAndFinalZone := by
  refine ⟨by decide, fun s r rest hreq => ?_⟩
  extract_lets n z m
  have hz : highNibble (r.buf.getLastD 0) = z := congrArg highNibble getLastD_eq_byteAt
  have hlow := map_lowNibble_eq_map_range r.buf
  refine ⟨fun hreject => exec_of_result_error .zdDec hreq (e := .invalidArgument) ?_,
    fun hp hpos hzone hdigits => ?_⟩
  · rcases hreject with habsent | hempty | hzone | ⟨k, hk, hbig⟩
    · exact zdDecResult_of_unreadable fun ⟨hp, _⟩ => by simp [habsent] at hp
    · exact zdDecResult_of_unreadable fun ⟨_, hpos⟩ => hpos.ne' hempty
    · exact zdDecResult_of_sign_not_mem (by simpa only [hz, not_or] using hzone)
    · refine zdDecResult_of_not_digit ⟨_, ?_, hbig⟩
      rw [hlow]
      exact List.mem_map_of_mem (List.mem_range.mpr hk)
  · have hresult := zdDecResult_of_readable (p := s.params) hp hpos
    rw [hz, zonedSign_of_mem hzone] at hresult
    have hd : ∀ x ∈ r.buf.map lowNibble, x.toNat ≤ 9 := by
      rw [hlow]
      simpa using hdigits
    have hm : valueOfDigits (r.buf.map lowNibble) = m := by
      rw [hlow]
      exact valueOfDigits_map_range _ _
    refine ⟨fun hbig => ?_, fun hlt => ?_⟩
    · exact exec_of_result_error .zdDec hreq
        (hresult.trans (decimalResult_of_overflow hd (hm ▸ hbig)))
    · exact exec_of_result_ok (i := .zdDec) hreq
        (hresult.trans (hm ▸ decimalResult_of_lt hd (hm.symm ▸ hlt)))

/-- Settles O37: the written field has the digits' value and a sign nibble of the sign's own set. -/
theorem packedRoundTrip : Obligations.PackedRoundTrip := by
  intro s r rest hadm hreq hcmd hfits
  rw [← length_digits] at hfits
  refine ⟨_, step_of_result_ok .pdEnc hreq (hcmd ▸ rfl) (pdEncResult_of_fits hfits), ?_⟩
  intro u r' rest' hparams hreq' hcmd' hp hbuf hblen
  have hresult : pdDecResult u.params r' =
      .ok { rneg := writtenNeg r, rmag := r.dmag, rscale := r'.scale } := by
    rw [hparams]
    exact pdDecResult_of_written hadm hfits hp hbuf hblen
  exact ⟨writtenNeg r, step_of_result_ok .pdDec hreq' (hcmd' ▸ rfl) hresult, writtenNeg_eq_dneg,
    writtenNeg_of_zero, decimalValue_writtenNeg r r'.scale⟩

/-- Settles O38: both decoders end in the same checks of the same digits, under the same sign. -/
theorem zonedAndPackedAgree : Obligations.ZonedAndPackedAgree := by
  intro s u p z restP restZ d pad sg hadm hparams hreqP hreqZ hcmdP hcmdZ hpP hpZ hne hdigits hsg
    hnibbles hblen hlow hhigh hscale
  obtain ⟨neg, hneg⟩ : ∃ neg, packedSign s.params sg = .ok neg := ⟨_, packedSign_of_mem hsg⟩
  have hpacked : pdDecResult s.params p = decimalResult neg d p.scale := by
    have hfield : nibblesOf (elements p.buf 0 p.blen.toNat) =
        List.replicate pad 0 ++ d ++ [sg] := by
      rw [hblen, elements_whole, hnibbles]
    rw [pdDecResult_of_nibbles hpP hblen.le hfield, hneg]
    exact decimalResult_replicate_append pad
  have hzoned : zdDecResult u.params z = decimalResult neg d p.scale := by
    have hpos : 0 < z.buf.length := by
      rw [← List.length_map (f := lowNibble), hlow]
      exact List.length_pos_iff.mpr hne
    rw [zdDecResult_of_readable hpZ hpos, hhigh, hlow, hparams, zonedSign_eq_packedSign hadm hsg,
      hneg, hscale]
    rfl
  refine ⟨finish (decimalResult neg d p.scale), ?_, ?_, fun hlt => ?_⟩
  · rw [← hpacked]
    exact step_of_decode .pdDec hreqP (hcmdP ▸ rfl)
  · rw [← hzoned]
    exact step_of_decode .zdDec hreqZ (hcmdZ ▸ rfl)
  · rw [decimalResult_of_lt hdigits hlt]
    exact ⟨rfl, Nat.mod_eq_of_lt hlt⟩

end Sys2Proof.Proofs
end

section
/-! PROOFS. The statements of the big-endian integer codec (43_integer_codec.md): I16_ENC, I32_ENC,
I16_DEC, I32_DEC, and their round trips. -/

namespace Sys2Proof.Machine

/-! ### Patterns as bytes, most significant first -/

section bytes
variable (b0 b1 b2 b3 : Byte)

theorem toNat_append_four :
    (b0 ++ b1 ++ b2 ++ b3).toNat =
      b0.toNat * 2 ^ 24 + b1.toNat * 2 ^ 16 + b2.toNat * 2 ^ 8 + b3.toNat := by
  simp only [toNat_append_eq]
  ring

/-- The two's-complement value of a 16-bit pattern: its sign is the first byte's. -/
theorem toInt_append_two :
    (b0 ++ b1).toInt = if b0.toNat < 2 ^ 7 then (b0.toNat * 2 ^ 8 + b1.toNat : Int)
      else (b0.toNat * 2 ^ 8 + b1.toNat : Int) - 2 ^ 16 := by
  have hb1 : b1.toNat < 2 ^ 8 := b1.isLt
  have hsign : 2 * (b0.toNat * 2 ^ 8 + b1.toNat) < 2 ^ (8 + 8) ↔ b0.toNat < 2 ^ 7 := by omega
  rw [BitVec.toInt_eq_toNat_cond, toNat_append_eq, if_congr hsign rfl rfl]
  norm_cast

end bytes

section read
variable {b : List Byte} {o : Nat} {b0 b1 b2 b3 : Byte}

theorem read16_eq_append (h : elements b o 2 = [b0, b1]) : read16 b o = b0 ++ b1 := by
  have e0 : byteAt b o = b0 := byteAt_add h (k := 0) (by norm_num)
  have e1 : byteAt b (o + 1) = b1 := byteAt_add h (by norm_num)
  rw [read16, e0, e1]

theorem read32_eq_append (h : elements b o 4 = [b0, b1, b2, b3]) :
    read32 b o = b0 ++ b1 ++ b2 ++ b3 := by
  have e0 : byteAt b o = b0 := byteAt_add h (k := 0) (by norm_num)
  have e1 : byteAt b (o + 1) = b1 := byteAt_add h (by norm_num)
  have e2 : byteAt b (o + 2) = b2 := byteAt_add h (by norm_num)
  have e3 : byteAt b (o + 3) = b3 := byteAt_add h (by norm_num)
  rw [read32, e0, e1, e2, e3]

end read

/-- Reading joins again the bytes that writing cut (20_memory.md R46). -/
@[simp] theorem read16_bigEndian16 (p : BitVec 16) : read16 (bigEndian16 p) 0 = p :=
  BitVec.extractLsb'_append_extractLsb' (w := 8) (len := 8)

@[simp] theorem read32_bigEndian32 (p : Word) : read32 (bigEndian32 p) 0 = p := by
  rw [read32_eq_append (b := bigEndian32 p) rfl,
    BitVec.extractLsb'_append_extractLsb'_eq_extractLsb' (start₂ := 24) rfl,
    BitVec.extractLsb'_append_extractLsb'_eq_extractLsb' (start₂ := 16) rfl]
  exact BitVec.extractLsb'_append_extractLsb' (w := 24) (len := 8)

/-- The low half of a sign-extended pattern is the pattern. -/
theorem extractLsb'_signExtend_low (p : BitVec 16) : (p.signExtend 32).extractLsb' 0 16 = p := by
  rw [BitVec.signExtend_eq_append_of_le (by norm_num)]
  exact BitVec.extractLsb'_append_eq_right

/-! ### I16_DEC and I32_DEC -/

section decoders
variable {a1p : Bool} {r : Request} {o : Nat}

theorem i16DecResult_of_absent (hp : r.bufP = false) :
    i16DecResult a1p r = .error .invalidArgument := by
  simp [i16DecResult, hp]

theorem i16DecResult_of_not_offsetIs (h : ¬ ∃ o, OffsetIs r.buf.length a1p r.idx 2 o) :
    i16DecResult a1p r = .error .invalidArgument := by
  simp [i16DecResult, sliceFixed_of_not_offsetIs h]

theorem i16DecResult_of_offsetIs (hp : r.bufP = true)
    (ho : OffsetIs r.buf.length a1p r.idx 2 o) :
    i16DecResult a1p r = .ok { res := (read16 r.buf o).signExtend 32 } := by
  simp [i16DecResult, hp, sliceFixed_of_offsetIs ho]

theorem i32DecResult_of_absent (hp : r.bufP = false) :
    i32DecResult a1p r = .error .invalidArgument := by
  simp [i32DecResult, hp]

theorem i32DecResult_of_not_offsetIs (h : ¬ ∃ o, OffsetIs r.buf.length a1p r.idx 4 o) :
    i32DecResult a1p r = .error .invalidArgument := by
  simp [i32DecResult, sliceFixed_of_not_offsetIs h]

theorem i32DecResult_of_offsetIs (hp : r.bufP = true)
    (ho : OffsetIs r.buf.length a1p r.idx 4 o) :
    i32DecResult a1p r = .ok { res := read32 r.buf o } := by
  simp [i32DecResult, hp, sliceFixed_of_offsetIs ho]

/-- I16_DEC of what I16_ENC wrote. -/
theorem i16DecResult_of_written {p : BitVec 16} (hp : r.bufP = true)
    (hbuf : r.buf = bigEndian16 p) : i16DecResult false r = .ok { res := p.signExtend 32 } := by
  have ho : OffsetIs r.buf.length false r.idx 2 0 := ⟨rfl, by simp [hbuf, bigEndian16]⟩
  rw [i16DecResult_of_offsetIs hp ho, hbuf, read16_bigEndian16]

/-- I32_DEC of what I32_ENC wrote. -/
theorem i32DecResult_of_written {p : Word} (hp : r.bufP = true) (hbuf : r.buf = bigEndian32 p) :
    i32DecResult false r = .ok { res := p } := by
  have ho : OffsetIs r.buf.length false r.idx 4 0 := ⟨rfl, by simp [hbuf, bigEndian32]⟩
  rw [i32DecResult_of_offsetIs hp ho, hbuf, read32_bigEndian32]

end decoders

end Sys2Proof.Machine

namespace Sys2Proof.Proofs

open Sys2Proof.Machine

/-- Settles O41: the checks of presence and of the offset, then the two bytes, whose sign the
extension keeps. -/
theorem i16DecSignExtends : Obligations.I16DecSignExtends := by
  refine ⟨by decide, by decide, fun s r rest a1p hreq => ⟨fun hp => ?_, fun _ hnot => ?_,
    fun hp o b0 b1 ho hbytes => ⟨_,
      exec_of_result_ok (i := .i16Dec a1p) hreq (i16DecResult_of_offsetIs hp ho), ?_⟩⟩⟩
  · exact exec_of_result_error (.i16Dec a1p) hreq (i16DecResult_of_absent hp)
  · exact exec_of_result_error (.i16Dec a1p) hreq (i16DecResult_of_not_offsetIs hnot)
  · rw [BitVec.toInt_signExtend_of_le (by norm_num), read16_eq_append hbytes]
    exact toInt_append_two b0 b1

/-- Settles O42: the checks of presence and of the offset, then the four bytes. -/
theorem i32DecIsBigEndian : Obligations.I32DecIsBigEndian := by
  refine ⟨by decide, by decide, fun s r rest a1p hreq => ⟨fun hp => ?_, fun _ hnot => ?_,
    fun hp o b0 b1 b2 b3 ho hbytes => ⟨_,
      exec_of_result_ok (i := .i32Dec a1p) hreq (i32DecResult_of_offsetIs hp ho), ?_⟩⟩⟩
  · exact exec_of_result_error (.i32Dec a1p) hreq (i32DecResult_of_absent hp)
  · exact exec_of_result_error (.i32Dec a1p) hreq (i32DecResult_of_not_offsetIs hnot)
  · rw [read32_eq_append hbytes]
    exact toNat_append_four b0 b1 b2 b3

/-- Settles O43: the decoders join the bytes the encoders cut, and the sign extension changes
neither the value nor the low half. -/
theorem integerRoundTrips : Obligations.IntegerRoundTrips := by
  intro s u r r' rest rest' hreq hreq' hp
  refine ⟨fun hcmd => ⟨_, step_of_result_ok .i16Enc hreq (hcmd ▸ rfl) rfl, fun hcmd' hbuf =>
      ⟨_, step_of_result_ok (.i16Dec false) hreq' (hcmd' ▸ rfl) (i16DecResult_of_written hp hbuf),
        ?_, ?_⟩⟩,
    fun hcmd => ⟨_, step_of_result_ok .i32Enc hreq (hcmd ▸ rfl) rfl, fun hcmd' hbuf =>
      step_of_result_ok (.i32Dec false) hreq' (hcmd' ▸ rfl) (i32DecResult_of_written hp hbuf)⟩⟩
  · exact BitVec.toInt_signExtend_of_le (by norm_num)
  · rw [extractLsb'_signExtend_low, BitVec.toInt_signExtend_of_le (by norm_num)]

/-- Settles O39: the two bytes join to the low half of `ARG0`. -/
theorem i16EncIsBigEndian : Obligations.I16EncIsBigEndian := by
  refine ⟨by decide, fun s r rest hreq => ⟨_, _, exec_of_result_ok (i := .i16Enc) hreq rfl, ?_⟩⟩
  rw [← toNat_append_eq, ← read16_eq_append (b := bigEndian16 _) (o := 0) rfl, read16_bigEndian16,
    BitVec.extractLsb'_toNat, Nat.shiftRight_zero]

/-- Settles O40: the four bytes join to `ARG0`. -/
theorem i32EncIsBigEndian : Obligations.I32EncIsBigEndian := by
  refine ⟨by decide, fun s r rest hreq =>
    ⟨_, _, _, _, exec_of_result_ok (i := .i32Enc) hreq rfl, ?_⟩⟩
  rw [← toNat_append_four, ← read32_eq_append (b := bigEndian32 r.arg0) (o := 0) rfl,
    read32_bigEndian32]

end Sys2Proof.Proofs
end

section
/-! PROOFS. The statements of the exceptions (60_exceptions.md): every step goes on, an error leaves
no trace, its response is bare, and which errors each command raises. -/

namespace Sys2Proof.Machine

/-! ### What a step leaves to the next one -/

/-- There are no operands to read (log 5). -/
theorem exec_nil {s : State} (h : s.requests = []) (i : Instr) : exec i s = .fault .noRequest := by
  rw [exec_eq_answer, answer_nil h]

theorem safeStep (s : State) : SafeStep s := by
  cases hreq : s.requests with
  | nil => exact ⟨s, step_nil hreq⟩
  | cons r rest => exact ⟨_, step_cons hreq⟩

/-! ### Error responses -/

section response
variable {rom : TextRom} {p : Params} {r : Request} {q : Response}

theorem status_of_requestResult (h : requestResult rom p r = .ok q) : q.status = 0 := by
  unfold requestResult at h
  split at h
  · exact status_of_writesOnly (writesOnly_of_resultOf h)
  · cases h

/-- A response is the error response of R203 or has status OK. -/
theorem respond_eq_errorResponse_or (rom : TextRom) (p : Params) (r : Request) :
    (∃ e, respond rom p r = errorResponse e) ∨ (respond rom p r).status = 0 := by
  unfold respond
  cases h : requestResult rom p r with
  | error e => exact .inl ⟨e, rfl⟩
  | ok q => exact .inr (status_of_requestResult h)

end response

/-! ### The errors a meaning raises -/

/-- Every error `x` can end in is listed in `es`. -/
def RaisesOnly {α : Type} (es : List Error) (x : Except Error α) : Prop :=
  ∀ e, x = .error e → e ∈ es

namespace RaisesOnly

variable {α β : Type} {es : List Error} {x : Except Error α} {a : α} {e : Error}

theorem of_eq_ok (h : x = .ok a) : RaisesOnly es x := by
  rintro e he
  cases h.symm.trans he

theorem of_eq_error (h : x = .error e) (he : e ∈ es) : RaisesOnly es x := by
  rintro e' he'
  cases h.symm.trans he'
  exact he

theorem bind {f : α → Except Error β} (hx : RaisesOnly es x)
    (hf : ∀ a, RaisesOnly es (f a)) : RaisesOnly es (x.bind f) := by
  cases x with
  | ok a => exact hf a
  | error e => exact of_eq_error rfl (hx e rfl)

theorem map (f : α → β) (hx : RaisesOnly es x) : RaisesOnly es (x.map f) := by
  cases x with
  | ok a => exact of_eq_ok rfl
  | error e => exact of_eq_error rfl (hx e rfl)

/-- The first two checks of a command that reads an operand: it is there (`b`), and the part of it
that is read lies inside it (`inside`). What follows is reached only past both (R205). -/
theorem of_checks {b : Bool} {inside : Prop} (hes : .invalidArgument ∈ es)
    (habsent : b = false → x = .error .invalidArgument)
    (houtside : ¬ inside → x = .error .invalidArgument)
    (hread : b = true → inside → RaisesOnly es x) : RaisesOnly es x := by
  cases hb : b with
  | false => exact of_eq_error (habsent hb) hes
  | true =>
    by_cases hin : inside
    · exact hread hb hin
    · exact of_eq_error (houtside hin) hes

/-- A success has status OK, so the status codes are OK and those of the listed errors. -/
theorem status_finish_mem {x : Except Error Response} (hx : RaisesOnly es x)
    (hok : ∀ q, x = .ok q → q.status = 0) : (finish x).status ∈ 0 :: es.map statusOf := by
  cases x with
  | ok q => exact List.mem_cons.mpr (.inl (hok q rfl))
  | error e => exact List.mem_cons_of_mem 0 (List.mem_map_of_mem (hx e rfl))

end RaisesOnly

section operations
variable {es : List Error}

theorem raisesOnly_encodeScalars (hes : .unmappableCharacter ∈ es) (rom : TextRom)
    (t : List Scalar) : RaisesOnly es (encodeScalars rom t) := by
  intro e he
  obtain ⟨rfl, -⟩ := encodeScalars_error_iff.mp he
  exact hes

theorem raisesOnly_packedSign (hes : .invalidArgument ∈ es) (p : Params) (n : Nibble) :
    RaisesOnly es (packedSign p n) := by
  by_cases h : n ∈ p.pdPosAccept ∨ n ∈ p.pdNegAccept
  · exact .of_eq_ok (packedSign_of_mem h)
  · exact .of_eq_error (packedSign_of_not_mem h) hes

theorem raisesOnly_zonedSign (hes : .invalidArgument ∈ es) (p : Params) (z : Nibble) :
    RaisesOnly es (zonedSign p z) := by
  by_cases h : z ∈ p.pdNegAccept ∨ z ∈ p.pdPosAccept ∨ z ∈ p.zdPosExtra
  · exact .of_eq_ok (zonedSign_of_mem h)
  · exact .of_eq_error (zonedSign_of_not_mem h) hes

theorem raisesOnly_decimalResult (hes : .invalidArgument ∈ es) (hes' : .overflow ∈ es) (neg : Bool)
    (d : List Nibble) (scale : Byte) : RaisesOnly es (decimalResult neg d scale) := by
  by_cases hd : ∃ x ∈ d, 9 < x.toNat
  · exact .of_eq_error (decimalResult_of_not_digit hd) hes
  · push Not at hd
    rcases lt_or_ge (valueOfDigits d) (2 ^ 96) with hlt | hge
    · exact .of_eq_ok (decimalResult_of_lt hd hlt)
    · exact .of_eq_error (decimalResult_of_overflow hd hge) hes'

/-- A finite float32 is encoded without error: the range checks of R125 step 6 are never met (R126),
and Underflow never appears. -/
theorem raisesOnly_hfpEncode (mode : Rounding) (f : Word) :
    RaisesOnly [.invalidArgument, .overflow] (hfpEncode mode f) := by
  by_cases hnan : IsNaN f
  · exact .of_eq_error (hfpEncode_of_isNaN hnan) (by decide)
  by_cases hinf : IsInfinity f
  · exact .of_eq_error (hfpEncode_of_isInfinity hinf) (by decide)
  by_cases hzero : IsZero f
  · exact .of_eq_ok (hfpEncode_of_isZero hzero)
  have hf : IsNormal f ∨ IsSubnormal f := by tauto
  obtain ⟨e, hlo, hhi⟩ := exists_hfp_exponent hf
  obtain ⟨h0, h1, h2, h3, henc, -⟩ := exists_hfpEncode_eq_ok mode hf hlo hhi
  exact .of_eq_ok henc

theorem raisesOnly_hfpDecode (hes : .overflow ∈ es) (h0 h1 h2 h3 : Byte) :
    RaisesOnly es (hfpDecode h0 h1 h2 h3) := by
  by_cases hm : hfpMantissa h1 h2 h3 = 0
  · exact .of_eq_ok (hfpDecode_of_mantissa_eq_zero hm)
  · rcases lt_or_ge (|hfpValue h0 h1 h2 h3|) (2 ^ 128) with hlt | hge
    · obtain ⟨f, hdec, -⟩ := exists_hfpDecode_of_lt hm hlt
      exact .of_eq_ok hdec
    · exact .of_eq_error (hfpDecode_of_overflow hge) hes

end operations

section results
variable (rom : TextRom) (p : Params) (a1p a2p : Bool) (r : Request)

theorem raisesOnly_txtEncResult :
    RaisesOnly [.invalidArgument, .unmappableCharacter] (txtEncResult rom a1p a2p r) := by
  refine .of_checks (by decide) txtEncResult_of_absent txtEncResult_of_not_sliceIs ?_
  rintro hp ⟨st, n, hslice⟩
  rw [txtEncResult_of_sliceIs hp hslice]
  exact (raisesOnly_encodeScalars (by decide) rom _).map _

theorem raisesOnly_txtDecResult :
    RaisesOnly [.invalidArgument] (txtDecResult rom a1p a2p r) :=
  .of_checks (by decide) txtDecResult_of_absent txtDecResult_of_not_sliceIs
    fun hp ⟨_, _, hslice⟩ => .of_eq_ok (txtDecResult_of_sliceIs hp hslice)

theorem raisesOnly_hfpEncResult (mode : Rounding) :
    RaisesOnly [.invalidArgument, .overflow] (hfpEncResult mode r) := by
  cases henc : hfpEncode mode r.arg0 with
  | ok out => exact .of_eq_ok (hfpEncResult_of_ok henc)
  | error e =>
    exact .of_eq_error (hfpEncResult_of_error henc) (raisesOnly_hfpEncode mode r.arg0 e henc)

theorem raisesOnly_hfpDecResult :
    RaisesOnly [.invalidArgument, .overflow] (hfpDecResult a1p r) := by
  refine .of_checks (by decide) hfpDecResult_of_absent hfpDecResult_of_not_offsetIs ?_
  rintro hp ⟨o, ho⟩
  have hlen : (elements r.buf o 4).length = 4 := by
    obtain ⟨-, hle⟩ := ho
    rw [length_elements]
    omega
  obtain ⟨h0, h1, h2, h3, hbytes⟩ := List.length_eq_four.mp hlen
  rw [hfpDecResult_of_offsetIs hp ho hbytes]
  exact (raisesOnly_hfpDecode (by decide) h0 h1 h2 h3).map _

theorem raisesOnly_pdEncResult : RaisesOnly [.overflow] (pdEncResult p r) := by
  rcases Nat.lt_or_ge (2 * r.blen.toNat) ((digits r.dmag.toNat).length + 1) with hlt | hge
  · exact .of_eq_error (pdEncResult_of_overflow hlt) (by decide)
  · exact .of_eq_ok (pdEncResult_of_fits hge)

theorem raisesOnly_pdDecResult :
    RaisesOnly [.invalidArgument, .overflow] (pdDecResult p r) := by
  by_cases hread : r.bufP = true ∧ 0 < r.blen.toNat ∧ r.blen.toNat ≤ r.buf.length
  · obtain ⟨hp, hpos, hl⟩ := hread
    rw [pdDecResult_of_readable hp hpos hl]
    exact (raisesOnly_packedSign (by decide) p _).bind fun neg =>
      raisesOnly_decimalResult (by decide) (by decide) neg _ _
  · exact .of_eq_error (pdDecResult_of_unreadable hread) (by decide)

theorem raisesOnly_zdDecResult :
    RaisesOnly [.invalidArgument, .overflow] (zdDecResult p r) := by
  by_cases hread : r.bufP = true ∧ 0 < r.buf.length
  · obtain ⟨hp, hpos⟩ := hread
    rw [zdDecResult_of_readable hp hpos]
    exact (raisesOnly_zonedSign (by decide) p _).bind fun neg =>
      raisesOnly_decimalResult (by decide) (by decide) neg _ _
  · exact .of_eq_error (zdDecResult_of_unreadable hread) (by decide)

theorem raisesOnly_i16DecResult : RaisesOnly [.invalidArgument] (i16DecResult a1p r) :=
  .of_checks (by decide) i16DecResult_of_absent i16DecResult_of_not_offsetIs
    fun hp ⟨_, ho⟩ => .of_eq_ok (i16DecResult_of_offsetIs hp ho)

theorem raisesOnly_i32DecResult : RaisesOnly [.invalidArgument] (i32DecResult a1p r) :=
  .of_checks (by decide) i32DecResult_of_absent i32DecResult_of_not_offsetIs
    fun hp ⟨_, ho⟩ => .of_eq_ok (i32DecResult_of_offsetIs hp ho)

end results

/-- The row of R202 for a command: the errors with a reachable cause. -/
def possibleErrors : Instr → List Error
  | .txtEnc _ _ => [.invalidArgument, .unmappableCharacter]
  | .txtDec _ _ | .i16Dec _ | .i32Dec _ => [.invalidArgument]
  | .hfpEnc | .hfpDec _ | .pdDec | .zdDec => [.invalidArgument, .overflow]
  | .pdEnc => [.overflow]
  | .i16Enc | .i32Enc => []

/-- The status codes of a command are OK and those of its errors. -/
theorem statusPossible_eq (i : Instr) :
    statusPossible i = 0 :: (possibleErrors i).map statusOf := by
  cases i <;> rfl

theorem raisesOnly_resultOf (rom : TextRom) (p : Params) (i : Instr) (r : Request) :
    RaisesOnly (possibleErrors i) (resultOf rom p i r) := by
  cases i with
  | txtEnc a1p a2p => exact raisesOnly_txtEncResult rom a1p a2p r
  | txtDec a1p a2p => exact raisesOnly_txtDecResult rom a1p a2p r
  | hfpEnc => exact raisesOnly_hfpEncResult r p.hfpRound
  | hfpDec a1p => exact raisesOnly_hfpDecResult a1p r
  | pdEnc => exact raisesOnly_pdEncResult p r
  | pdDec => exact raisesOnly_pdDecResult p r
  | zdDec => exact raisesOnly_zdDecResult p r
  | i16Enc | i32Enc => exact .of_eq_ok rfl
  | i16Dec a1p => exact raisesOnly_i16DecResult a1p r
  | i32Dec a1p => exact raisesOnly_i32DecResult a1p r

end Sys2Proof.Machine

namespace Sys2Proof.Proofs

open Sys2Proof.Machine

/-- Settles O9: the error changes neither the table nor the parameters, and the response is a
function of these and the request. -/
theorem errorsLeaveNoTrace : Obligations.ErrorsLeaveNoTrace := by
  intro s t bad r rest q hreq hstep _ _
  rw [step_cons hreq, Host.Outcome.next.injEq] at hstep
  subst hstep
  refine ⟨respond s.textRom s.params r, step_eq_answered_respond rfl, fun u hrom hparams hu => ?_⟩
  rw [← hrom, ← hparams]
  exact step_eq_answered_respond hu

/-- Settles O15: an error response is bare, and any other response has status OK. -/
theorem errorResponsesAreBare : Obligations.ErrorResponsesAreBare := by
  intro s r rest hreq
  refine ⟨_, step_eq_answered_respond hreq, ?_⟩
  rcases respond_eq_errorResponse_or s.textRom s.params r with ⟨e, he⟩ | hok
  · have hpossible : ResponseOk s.textRom (errorResponse e) := responseOk_errorResponse e
    rw [he]
    exact ⟨hpossible.assigned, hpossible.bareError⟩
  · exact ⟨by simp [hok], absurd hok⟩

/-- Settles O18: a command raises the errors of its row alone, and a success has status OK. -/
theorem commandsGiveOnlyTheirStatusCodes : Obligations.CommandsGiveOnlyTheirStatusCodes := by
  intro i s r rest hreq
  refine ⟨_, exec_cons hreq i, ?_⟩
  rw [statusPossible_eq]
  exact (raisesOnly_resultOf s.textRom s.params i r).status_finish_mem fun _ hq =>
    status_of_writesOnly (writesOnly_of_resultOf hq)

/-- Settles O6: a request that waits is answered, whatever its word, and without one a step is
idle. -/
theorem noStepStops : Obligations.NoStepStops := by
  refine ⟨safeStep, fun i s hne => ?_, fun i _ hreq => exec_nil hreq i⟩
  obtain ⟨r, rest, hreq⟩ := List.exists_cons_of_ne_nil hne
  exact ⟨_, exec_cons hreq i⟩

end Sys2Proof.Proofs
end

section
/-! PROOFS. The statements of reset and hazards (70_reset_and_hazards.md): the run of a program, and
what the reset signal loses. -/

namespace Sys2Proof.Machine

variable {s : State}

theorem core_run_succ {t : State} (h : step s = .next t) (k : Nat) :
    core.run (k + 1) s = core.run k t := by
  simp only [Host.Core.run, core, h]

/-- The requests behind the program keep waiting, and no answer depends on them. -/
theorem core_run_length {program rest : List Request} (h : s.requests = program ++ rest) :
    core.run program.length s =
      .next { textRom := s.textRom, params := s.params, requests := rest,
              responses := s.responses ++ program.map (respond s.textRom s.params) } := by
  induction program generalizing s with
  | nil =>
    rw [List.nil_append] at h
    rw [← h, List.map_nil, List.append_nil]
    rfl
  | cons r program ih =>
    rw [List.cons_append] at h
    rw [List.length_cons, core_run_succ (step_eq_answered_respond h), ih rfl]
    simp

theorem requests_issue_resetSignal (s : State) (r : Request) :
    (issue r (resetSignal s)).requests = [r] := rfl

end Sys2Proof.Machine

namespace Sys2Proof.Proofs

open Sys2Proof.Machine

/-- Settles O8, by induction on the program: each step answers the oldest request by `respond`, and
the rest of the program runs from the same table and parameters. -/
theorem runAnswersEachRequestInOrder : Obligations.RunAnswersEachRequestInOrder :=
  ⟨respond, fun _ program h => core_run_length (h.trans program.append_nil.symm)⟩

/-- Settles O14: the request issued after the reset signal is the only one that waits, and its
response is a function of the table, the parameters and the request. -/
theorem resetLosesUnansweredRequests : Obligations.ResetLosesUnansweredRequests := by
  intro s r
  refine ⟨respond s.textRom s.params r,
    step_eq_answered_respond (requests_issue_resetSignal s r), fun u rest hrom hparams hu => ?_⟩
  rw [← hrom, ← hparams]
  exact step_eq_answered_respond hu

end Sys2Proof.Proofs
end

section
/-! PROOFS. The statement of the source's literal vectors (95_test_vectors.md part 1). -/

namespace Sys2Proof.Machine

section fixedEntries
variable {rom : TextRom} {l : List (Byte × Scalar)}

/-- A text and its codes, both spelled from the seven fixed entries (10_state.md R27), correspond
under every admissible table. -/
theorem map_romRead_of_subset_fixedEntries (hrom : RomAdmissible rom) (hl : l ⊆ fixedEntries) :
    (l.map Prod.fst).map (romRead rom) = l.map Prod.snd := by
  rw [List.map_map, List.map_inj_left]
  exact fun entry hmem => hrom.fixed entry (hl hmem)

theorem encodeScalars_of_subset_fixedEntries (hrom : RomAdmissible rom) (hl : l ⊆ fixedEntries) :
    encodeScalars rom (l.map Prod.snd) = .ok (l.map Prod.fst) := by
  rw [← map_romRead_of_subset_fixedEntries hrom hl, encodeScalars_map_romRead hrom]

theorem txtEncResult_of_subset_fixedEntries {r : Request} (hrom : RomAdmissible rom)
    (hl : l ⊆ fixedEntries) (hp : r.txtP = true) (htxt : r.txt = l.map Prod.snd) :
    txtEncResult rom false false r = .ok { obuf := l.map Prod.fst } := by
  refine txtEncResult_whole.mpr ⟨hp, ?_⟩
  rw [htxt, encodeScalars_of_subset_fixedEntries hrom hl]

theorem txtDecResult_of_subset_fixedEntries {r : Request} (hrom : RomAdmissible rom)
    (hl : l ⊆ fixedEntries) (hp : r.bufP = true) (hbuf : r.buf = l.map Prod.fst) :
    txtDecResult rom false false r = .ok { otxt := l.map Prod.snd } := by
  refine txtDecResult_whole.mpr ⟨hp, ?_⟩
  rw [hbuf, map_romRead_of_subset_fixedEntries hrom hl]

end fixedEntries

/-- The entries that spell "Nope". -/
def nopeEntries : List (Byte × Scalar) := [(0xD5, 0x4E), (0x96, 0x6F), (0x97, 0x70), (0x85, 0x65)]

/-- The entries that spell "Hello,". -/
def helloEntries : List (Byte × Scalar) :=
  [(0xC8, 0x48), (0x85, 0x65), (0x93, 0x6C), (0x93, 0x6C), (0x96, 0x6F), (0x6B, 0x2C)]

theorem nopeEntries_subset : nopeEntries ⊆ fixedEntries := by decide

theorem helloEntries_subset : helloEntries ⊆ fixedEntries := by decide

/-- The mantissa of `64.12548828125` is the integer `4202528`, so neither rounding changes it. -/
theorem hfpEncode_literal (mode : Rounding) :
    hfpEncode mode 0x42804040 = .ok [0x42, 0x40, 0x20, 0x20] := by
  cases mode with
  | rne => rfl
  | rhu => rfl

/-- `-2094178 / 2^24` is a float32. -/
theorem hfpDecode_literal : hfpDecode 0xC0 0x1F 0xF4 0x62 = .ok 0xBDFFA310 := rfl

section results
variable {r : Request}

theorem i16EncResult_of_arg0 {w : Word} (harg : r.arg0 = w) :
    i16EncResult r = .ok { obuf := bigEndian16 (w.extractLsb' 0 16) } := by
  rw [i16EncResult, harg]

theorem i32EncResult_of_arg0 {w : Word} (harg : r.arg0 = w) :
    i32EncResult r = .ok { obuf := bigEndian32 w } := by
  rw [i32EncResult, harg]

/-- HFP_DEC without an offset, of a buffer that is one HFP word. -/
theorem hfpDecResult_whole {h0 h1 h2 h3 : Byte} {f : Word} (hp : r.bufP = true)
    (hbuf : r.buf = [h0, h1, h2, h3]) (hdec : hfpDecode h0 h1 h2 h3 = .ok f) :
    hfpDecResult false r = .ok { res := f } := by
  have ho : OffsetIs r.buf.length false r.idx 4 0 := ⟨rfl, by simp [hbuf]⟩
  have hbytes : elements r.buf 0 4 = [h0, h1, h2, h3] := by rw [hbuf]; rfl
  exact hfpDecResult_of_ok hp ho hbytes hdec

end results

end Sys2Proof.Machine

namespace Sys2Proof.Proofs

open Sys2Proof.Machine

/-- Settles O47: the text vectors use the seven fixed entries alone, the float vectors are exact,
and the integer vectors are the bytes of their patterns. -/
theorem sourceVectorsHold : Obligations.SourceVectorsHold := by
  intro s r rest hrom hreq
  refine ⟨fun hp htxt => ?s1, fun harg => ?s2, fun harg => ?s3, fun harg => ?s4, fun harg => ?s5,
    fun hp hbuf => ?s6, fun hp hbuf => ?s7, fun hp hbuf => ?s8⟩
  case s1 =>
    exact exec_of_result_ok hreq
      (txtEncResult_of_subset_fixedEntries hrom nopeEntries_subset hp htxt)
  case s2 => exact exec_of_result_ok (i := .i16Enc) hreq (i16EncResult_of_arg0 harg)
  case s3 => exact exec_of_result_ok (i := .i32Enc) hreq (i32EncResult_of_arg0 harg)
  case s4 =>
    exact exec_of_result_ok (i := .hfpEnc) hreq
      (hfpEncResult_of_ok (harg ▸ hfpEncode_literal s.params.hfpRound))
  case s5 => exact exec_of_result_ok (i := .i16Enc) hreq (i16EncResult_of_arg0 harg)
  case s6 =>
    exact exec_of_result_ok (i := .i16Dec false) hreq
      (i16DecResult_of_written (p := 0xABCD) hp hbuf)
  case s7 =>
    exact exec_of_result_ok (i := .hfpDec false) hreq (hfpDecResult_whole hp hbuf hfpDecode_literal)
  case s8 =>
    exact exec_of_result_ok hreq
      (txtDecResult_of_subset_fixedEntries hrom helloEntries_subset hp hbuf)

end Sys2Proof.Proofs
end
